-- ==== Sys2Proof/Word.lean ====
section
/-! DEFINITION. The bit vectors and index types of the machine (00_scope.md R8, R9, R10, R12). -/

namespace Sys2Proof

/-- `Word32` of rule R10: every register value, immediate, address and PC value.
`u(v)` is `v.toNat`, `s(v)` is `v.toInt`, and `+`, `-` wrap modulo 2^32. -/
abbrev Word := BitVec 32

/-- One byte of the memory window (rule R29). -/
abbrev Byte := BitVec 8

/-- The index of a general register, 0 to 31 (rule R20). An index is never an operand of
arithmetic, so it is a `Fin`, not a bit vector. -/
abbrev Reg := Fin 32

/-- A shift amount, 0 to 31 (rules R10 and R66). -/
abbrev Shamt := Fin 32

end Sys2Proof
end

