-- ==== Sys2Proof/Machine/Operands.lean ====
section
/-! DEFINITION. The arithmetic of operands: shifts by a five-bit amount (00_scope.md R10), the sequential PC and
the jump targets (40_execute_writeback.md R95). The immediate operands are extracted in Sys2Proof/Decode.lean. -/

namespace Sys2Proof.Machine

/-- `a << n` of rule R10: zero fill, bits past bit 31 discarded. -/
def shiftLeft (a : Word) (n : Shamt) : Word := a <<< n.val

/-- `a >>u n` of rule R10: zero fill from the left. -/
def shiftRightLogical (a : Word) (n : Shamt) : Word := a >>> n.val

/-- `a >>s n` of rule R10: filled with `a[31]`. -/
def shiftRightArith (a : Word) (n : Shamt) : Word := a.sshiftRight n.val

/-- `seq_pc = pc + 4`, modulo 2^32 (rules R27 and R95, decision D6). -/
def seqPc (pc : Word) : Word := pc + 4#32

/-- The target of JAL: `pc + imm_J`, modulo 2^32 (rules R95 and R141). -/
def jalTarget (pc offset : Word) : Word := pc + offset

/-- The target of JALR: the sum with bit 0 cleared, a bitwise AND (rules R95 and R142; 90_conflicts.md C4). -/
def jalrTarget (base imm : Word) : Word := (base + imm) &&& 0xFFFFFFFE#32

end Sys2Proof.Machine
end

