-- ==== Sys2Proof/Syntax.lean ====
section
/-! DEFINITION. The instructions, one constructor for each row of spec/opcode_table.json in the table's order,
and the decoder's output record (30_encoding.md R68 to R70, R76; 40_execute_writeback.md R92). -/

namespace Sys2Proof

/-- The thirteen instructions of rule R3, with resolved operands (rule R76): register indices, the
sign-extended immediate `imm_I`, the final pattern `imm_U`, the signed offset `imm_J`, or the shift
amount `shamt`. -/
inductive Instr
  | addi  (rd rs1 : Reg) (imm : Word)
  | slli  (rd rs1 : Reg) (shamt : Shamt)
  | slti  (rd rs1 : Reg) (imm : Word)
  | sltiu (rd rs1 : Reg) (imm : Word)
  | xori  (rd rs1 : Reg) (imm : Word)
  | srli  (rd rs1 : Reg) (shamt : Shamt)
  | srai  (rd rs1 : Reg) (shamt : Shamt)
  | ori   (rd rs1 : Reg) (imm : Word)
  | andi  (rd rs1 : Reg) (imm : Word)
  | lui   (rd : Reg) (imm : Word)
  | auipc (rd : Reg) (imm : Word)
  | jal   (rd : Reg) (offset : Word)
  | jalr  (rd rs1 : Reg) (imm : Word)
deriving DecidableEq, Repr

/-- The class of a word (rules R70 and R92): the instruction identity, or ILLEGAL. -/
inductive InstrClass
  | addi | slli | slti | sltiu | xori | srli | srai | ori | andi
  | lui | auipc | jal | jalr
  | illegal
deriving DecidableEq, Repr

/-- The format tag (rules R69 and R92). `other` is the tag of every ILLEGAL word (decision D21: unobservable). -/
inductive Format
  | I | U | J | other
deriving DecidableEq, Repr

/-- The decoded instruction record of rule R76. Every field is extracted from every word, whatever its class. -/
structure Decoded where
  inst   : Word
  cls    : InstrClass
  format : Format
  rd     : Reg
  rs1    : Reg
  rs2    : Reg
  funct3 : Fin 8
  funct7 : Fin 128
  immI   : Word
  immU   : Word
  immJ   : Word
  shamt  : Shamt
  /-- `arith = inst[30]`. -/
  arith  : Bool
deriving DecidableEq, Repr

/-- The format of each class (rules R68 and R69). -/
def InstrClass.format : InstrClass → Format
  | .addi | .slli | .slti | .sltiu | .xori | .srli | .srai | .ori | .andi | .jalr => .I
  | .lui | .auipc => .U
  | .jal => .J
  | .illegal => .other

namespace Instr

/-- The class an instruction stands for. -/
def cls : Instr → InstrClass
  | addi _ _ _ => .addi
  | slli _ _ _ => .slli
  | slti _ _ _ => .slti
  | sltiu _ _ _ => .sltiu
  | xori _ _ _ => .xori
  | srli _ _ _ => .srli
  | srai _ _ _ => .srai
  | ori _ _ _ => .ori
  | andi _ _ _ => .andi
  | lui _ _ => .lui
  | auipc _ _ => .auipc
  | jal _ _ => .jal
  | jalr _ _ _ => .jalr

/-- The destination register `rd`: all thirteen instructions have one (rule R24). -/
def rd : Instr → Reg
  | addi rd _ _ | slli rd _ _ | slti rd _ _ | sltiu rd _ _ | xori rd _ _ => rd
  | srli rd _ _ | srai rd _ _ | ori rd _ _ | andi rd _ _ => rd
  | lui rd _ | auipc rd _ | jal rd _ | jalr rd _ _ => rd

/-- The source register `rs1`, where the instruction reads one: LUI, AUIPC and JAL read no register (rule R24). -/
def source : Instr → Option Reg
  | addi _ rs1 _ | slli _ rs1 _ | slti _ rs1 _ | sltiu _ rs1 _ | xori _ rs1 _ => some rs1
  | srli _ rs1 _ | srai _ rs1 _ | ori _ rs1 _ | andi _ rs1 _ | jalr _ rs1 _ => some rs1
  | lui _ _ | auipc _ _ | jal _ _ => none

end Instr

end Sys2Proof
end

