-- ==== Sys2Proof/WellFormed.lean ====
section
/-! DEFINITION. Which instructions have an encoding: the domains of the immediate encoders (30_encoding.md R77).
Register indices and shift amounts are in range by their types. -/

namespace Sys2Proof

/-- The domain of `encI`: `s(v)` in `[-2048, 2047]`. -/
def immIFits (v : Word) : Bool := decide (-2048 ≤ v.toInt) && decide (v.toInt ≤ 2047)

/-- The domain of `encU`: `v[11:0] = 0`. -/
def immUFits (v : Word) : Bool := v.toNat % 4096 == 0

/-- The domain of `encJ`: `s(v)` even and in `[-2^20, 2^20 - 2]`. -/
def immJFits (v : Word) : Bool :=
  v.toInt % 2 == 0 && decide (-1048576 ≤ v.toInt) && decide (v.toInt ≤ 1048574)

/-- An instruction is well formed when its immediate is one its format can hold (rule R77: "Outside those
domains a value has no encoding"). -/
def Instr.wellFormed : Instr → Bool
  | .addi _ _ imm | .slti _ _ imm | .sltiu _ _ imm | .xori _ _ imm | .ori _ _ imm | .andi _ _ imm
  | .jalr _ _ imm => immIFits imm
  | .slli _ _ _ | .srli _ _ _ | .srai _ _ _ => true
  | .lui _ imm | .auipc _ imm => immUFits imm
  | .jal _ offset => immJFits offset

end Sys2Proof
end

