-- ==== Sys2Proof/Decode.lean ====
section
/-! DEFINITION. The decoder (30_encoding.md R60 to R76), total on every word and on any bytes, and after it the
encoder (R77), written from the same field positions. -/

namespace Sys2Proof

/-! ### Field extraction (R61) -/

/-- `inst[6:0]`. -/
def opcodeOf (w : Word) : BitVec 7 := w.extractLsb' 0 7

/-- `inst[11:7]`. -/
def rdOf (w : Word) : Reg := (w.extractLsb' 7 5).toFin

/-- `inst[14:12]`. -/
def funct3Of (w : Word) : Fin 8 := (w.extractLsb' 12 3).toFin

/-- `inst[19:15]`. -/
def rs1Of (w : Word) : Reg := (w.extractLsb' 15 5).toFin

/-- `inst[24:20]` as a register index; no in-scope instruction uses it. -/
def rs2Of (w : Word) : Reg := (w.extractLsb' 20 5).toFin

/-- `inst[31:25]`; no in-scope instruction uses it. -/
def funct7Of (w : Word) : Fin 128 := (w.extractLsb' 25 7).toFin

/-- `sext_N` of rule R11: the low `n` bits with copies of bit `n - 1` above them. -/
def sext (n : Nat) (v : BitVec n) : Word := v.signExtend 32

/-- `imm_I = sext_12(inst[31:20])` (rule R63). -/
def immI (w : Word) : Word := sext 12 (w.extractLsb' 20 12)

/-- `imm_U = { inst[31:12], 12'b0 }` (rule R64). -/
def immU (w : Word) : Word := w.extractLsb' 12 20 ++ 0#12

/-- `imm_J = sext_21({ inst[31], inst[19:12], inst[20], inst[30:21], 1'b0 })` (rule R65). -/
def immJ (w : Word) : Word :=
  sext 21 (w.extractLsb' 31 1 ++ w.extractLsb' 12 8 ++ w.extractLsb' 20 1 ++ w.extractLsb' 21 10 ++ 0#1)

/-- `shamt = imm_I & 0x1F = inst[24:20]` (rule R66). -/
def shamtOf (w : Word) : Shamt := (w.extractLsb' 20 5).toFin

/-- `arith = inst[30]`, the shift type selector (rule R67; 90_conflicts.md C3). -/
def arithOf (w : Word) : Bool := w.getLsbD 30

/-! ### Classification (R70) -/

/-- The class under opcode `0x13`, by funct3 and, for funct3 = 5, by bit 30 (rules R67, R70 and R73). -/
def opImmClass (funct3 : Fin 8) (arith : Bool) : InstrClass :=
  match funct3.val with
  | 0 => .addi
  | 1 => .slli
  | 2 => .slti
  | 3 => .sltiu
  | 4 => .xori
  | 5 => if arith then .srai else .srli
  | 6 => .ori
  | _ => .andi

/-- `class(inst)` of rule R70: dispatch on the opcode, on funct3 for opcodes `0x13` and `0x67`, and on bit
30 for SRLI and SRAI; no other bit takes part (rule R71, decisions D10 and D11). -/
def classify (w : Word) : InstrClass :=
  if opcodeOf w = 0x13#7 then opImmClass (funct3Of w) (arithOf w)
  else if opcodeOf w = 0x37#7 then .lui
  else if opcodeOf w = 0x17#7 then .auipc
  else if opcodeOf w = 0x6F#7 then .jal
  else if opcodeOf w = 0x67#7 then (if funct3Of w = 0 then .jalr else .illegal)
  else .illegal

/-- The decoder (rules R62 and R76): a pure, total function of the word, which extracts every field whatever
the class is. -/
def extract (w : Word) : Decoded :=
  { inst := w
    cls := classify w
    format := (classify w).format
    rd := rdOf w
    rs1 := rs1Of w
    rs2 := rs2Of w
    funct3 := funct3Of w
    funct7 := funct7Of w
    immI := immI w
    immU := immU w
    immJ := immJ w
    shamt := shamtOf w
    arith := arithOf w }

/-- The opcode output of the decoder's interface (rule R92), which the record of rule R76 holds in `inst`. -/
def Decoded.opcode (d : Decoded) : BitVec 7 := opcodeOf d.inst

/-- The instruction of a decoded record: the fields its class names (rule R76); none for ILLEGAL. -/
def Decoded.instr? (d : Decoded) : Option Instr :=
  match d.cls with
  | .addi => some (.addi d.rd d.rs1 d.immI)
  | .slli => some (.slli d.rd d.rs1 d.shamt)
  | .slti => some (.slti d.rd d.rs1 d.immI)
  | .sltiu => some (.sltiu d.rd d.rs1 d.immI)
  | .xori => some (.xori d.rd d.rs1 d.immI)
  | .srli => some (.srli d.rd d.rs1 d.shamt)
  | .srai => some (.srai d.rd d.rs1 d.shamt)
  | .ori => some (.ori d.rd d.rs1 d.immI)
  | .andi => some (.andi d.rd d.rs1 d.immI)
  | .lui => some (.lui d.rd d.immU)
  | .auipc => some (.auipc d.rd d.immU)
  | .jal => some (.jal d.rd d.immJ)
  | .jalr => some (.jalr d.rd d.rs1 d.immI)
  | .illegal => none

/-- Why bytes or a word are no instruction of the core. -/
inductive DecodeError
  /-- The word's class is ILLEGAL (rule R72). -/
  | illegal (word : Word)
  /-- Fewer than the four bytes of an instruction word (rule R60); only `decodeBytes` reports it. -/
  | truncated (available : Nat)
deriving DecidableEq, Repr

/-- The instruction of a word, or the rejection of an ILLEGAL word (rules R62 and R72). -/
def decodeWord (w : Word) : Except DecodeError Instr :=
  match (extract w).instr? with
  | some i => .ok i
  | none => .error (.illegal w)

/-! ### Words and bytes (R42, R45, R60) -/

/-- The word of four bytes, the first at the lowest address: little-endian (rule R42). -/
def wordOfBytes (b0 b1 b2 b3 : Byte) : Word := b3 ++ b2 ++ b1 ++ b0

/-- The four bytes of a word in memory order (rule R45). -/
def wordBytes (w : Word) : List Byte :=
  [w.extractLsb' 0 8, w.extractLsb' 8 8, w.extractLsb' 16 8, w.extractLsb' 24 8]

/-- The instruction at the front of a byte string and the bytes after it: it always consumes four
bytes (rule R60). -/
def decodeBytes : List Byte → Except DecodeError (Instr × List Byte)
  | b0 :: b1 :: b2 :: b3 :: rest =>
    match decodeWord (wordOfBytes b0 b1 b2 b3) with
    | .ok i => .ok (i, rest)
    | .error e => .error e
  | bytes => .error (.truncated bytes.length)

/-- The instruction of a row of the opcode table: the low `nbits` bits of `w`, with zeros above, laid out
little-endian and given to the decoder. -/
def decodeTableWord (nbits w : Nat) : Option Instr :=
  match decodeBytes (wordBytes (BitVec.ofNat 32 (w % 2 ^ nbits))) with
  | .ok (i, _) => some i
  | .error _ => none

/-! ### The encoder (R68, R77) -/

/-- `encI` of rule R77: writes `inst[31:20] := v[11:0]` and no other bit. -/
def encI (v inst : Word) : Word := v.extractLsb' 0 12 ++ inst.extractLsb' 0 20

/-- `encU` of rule R77: writes `inst[31:12] := v[31:12]` and no other bit. -/
def encU (v inst : Word) : Word := v.extractLsb' 12 20 ++ inst.extractLsb' 0 12

/-- `encJ` of rule R77: writes `inst[31] := v[20]`, `inst[30:21] := v[10:1]`, `inst[20] := v[11]`,
`inst[19:12] := v[19:12]` and no other bit. -/
def encJ (v inst : Word) : Word :=
  v.extractLsb' 20 1 ++ v.extractLsb' 1 10 ++ v.extractLsb' 11 1 ++ v.extractLsb' 12 8 ++ inst.extractLsb' 0 12

/-- The shift-immediate field (rule R68): `inst[30]` is the SRLI/SRAI select, `inst[24:20]` the shift amount, and
the unchecked bits `inst[31]` and `inst[29:25]` are written as zero. -/
def encShift (arith : Bool) (n : Shamt) (inst : Word) : Word :=
  0#1 ++ BitVec.ofBool arith ++ 0#5 ++ BitVec.ofNat 5 n.val ++ inst.extractLsb' 0 20

/-- The I-type layout (rule R68) with a zero immediate. -/
def layoutI (opcode : BitVec 7) (funct3 : BitVec 3) (rd rs1 : Reg) : Word :=
  0#12 ++ BitVec.ofNat 5 rs1.val ++ funct3 ++ BitVec.ofNat 5 rd.val ++ opcode

/-- The U-type and J-type layouts (rule R68) with a zero immediate. -/
def layoutU (opcode : BitVec 7) (rd : Reg) : Word :=
  0#20 ++ BitVec.ofNat 5 rd.val ++ opcode

/-- The word of an instruction. It stands for the instruction when the instruction is well formed. -/
def encode : Instr → Word
  | .addi rd rs1 imm => encI imm (layoutI 0x13#7 0#3 rd rs1)
  | .slli rd rs1 n => encShift false n (layoutI 0x13#7 1#3 rd rs1)
  | .slti rd rs1 imm => encI imm (layoutI 0x13#7 2#3 rd rs1)
  | .sltiu rd rs1 imm => encI imm (layoutI 0x13#7 3#3 rd rs1)
  | .xori rd rs1 imm => encI imm (layoutI 0x13#7 4#3 rd rs1)
  | .srli rd rs1 n => encShift false n (layoutI 0x13#7 5#3 rd rs1)
  | .srai rd rs1 n => encShift true n (layoutI 0x13#7 5#3 rd rs1)
  | .ori rd rs1 imm => encI imm (layoutI 0x13#7 6#3 rd rs1)
  | .andi rd rs1 imm => encI imm (layoutI 0x13#7 7#3 rd rs1)
  | .lui rd imm => encU imm (layoutU 0x37#7 rd)
  | .auipc rd imm => encU imm (layoutU 0x17#7 rd)
  | .jal rd offset => encJ offset (layoutU 0x6F#7 rd)
  | .jalr rd rs1 imm => encI imm (layoutI 0x67#7 0#3 rd rs1)

/-- The bits of a word that its class reads (rule R71): every bit but the ignored field of the shifts. -/
def InstrClass.readMask : InstrClass → Word
  | .slli => 0x01FFFFFF#32
  | .srli | .srai => 0x41FFFFFF#32
  | .addi | .slti | .sltiu | .xori | .ori | .andi | .lui | .auipc | .jal | .jalr | .illegal => 0xFFFFFFFF#32

/-- The rows of spec/opcode_table.json: class, mask and match. A word belongs to a row when `word & mask = match`. -/
def opcodeTable : List (InstrClass × Word × Word) :=
  [ (.addi,  0x0000707F#32, 0x00000013#32),
    (.slli,  0x0000707F#32, 0x00001013#32),
    (.slti,  0x0000707F#32, 0x00002013#32),
    (.sltiu, 0x0000707F#32, 0x00003013#32),
    (.xori,  0x0000707F#32, 0x00004013#32),
    (.srli,  0x4000707F#32, 0x00005013#32),
    (.srai,  0x4000707F#32, 0x40005013#32),
    (.ori,   0x0000707F#32, 0x00006013#32),
    (.andi,  0x0000707F#32, 0x00007013#32),
    (.lui,   0x0000007F#32, 0x00000037#32),
    (.auipc, 0x0000007F#32, 0x00000017#32),
    (.jal,   0x0000007F#32, 0x0000006F#32),
    (.jalr,  0x0000707F#32, 0x00000067#32) ]

end Sys2Proof
end

