-- ==== Sys2Proof/Config.lean ====
section
/-! DEFINITION. The implementation parameters of the core that are arguments of the model (00_scope.md R8).
The spec leaves no value free, so this file holds no opaque constant. -/

namespace Sys2Proof

/-- The parameters of rule R8 that are model arguments. They are fixed for a run and are carried in
State, so that every statement about a step ranges over all of them. -/
structure Config where
  /-- `MEM_BASE`: the lowest address of the memory window, and the reset vector. -/
  memBase : Word
  /-- `MEM_SIZE`: the size of the memory window in bytes. -/
  memSize : Nat
deriving DecidableEq, Repr

/-- The reference configuration of rule R8: base `0x80000000`, size 1 MiB. -/
def Config.reference : Config := { memBase := 0x80000000#32, memSize := 0x00100000 }

/-- The configuration constraints of rule R8 (decision D4): `MEM_BASE mod 4 = 0`, `0 <= MEM_SIZE` (which
holds of every natural number) and `MEM_BASE + MEM_SIZE <= 2^32` in unbounded integers. -/
def Config.valid (c : Config) : Bool :=
  c.memBase.toNat % 4 == 0 && decide (c.memBase.toNat + c.memSize ≤ 2 ^ 32)

end Sys2Proof
end

