-- ==== Sys2Proof/Machine/Reset.lean ====
section
/-! DEFINITION. The reset values as functions of the configuration (10_state.md R35 to R37; 70_reset_and_hazards.md
R171). They stand here, below State, so that State.reset can be built from them. -/

namespace Sys2Proof.Machine

/-- `SP_INIT = (MEM_BASE + MEM_SIZE) mod 2^32` (rule R35, decision D2). -/
def spInit (c : Config) : Word := BitVec.ofNat 32 (c.memBase.toNat + c.memSize)

/-- The general registers at reset (rule R35): index 2 holds `SP_INIT`, every other index 0. -/
def initRegs (c : Config) : Vector Word 32 := (Vector.replicate 32 0#32).set 2 (spInit c)

/-- The reset vector `MEM_BASE` (rule R36). -/
def resetVector (c : Config) : Word := c.memBase

/-- What a byte of the window that the image does not cover holds: `0x00` (rule R37, decision D3). It is what an
address that the memory list does not name reads as. -/
def memFill : Byte := 0x00#8

end Sys2Proof.Machine
end

