-- ==== Sys2Proof/Machine/State.lean ====
section
/-! DEFINITION. The architectural state (10_state.md R20 to R39), the fault kinds (60_exceptions.md R150) and the
refusals, and the machine right after reset (70_reset_and_hazards.md R170). -/

namespace Sys2Proof.Machine

/-- The two fault kinds of rule R150, with the information rules R151 and R152 record (decision D9). A faulting
step is a NEXT state whose status records the fault (rule R156); these constructors are also the outcome of a
step from that halted state, from which there is no transition (rule R91). -/
inductive Fault
  /-- Raised by the instruction fetch (rule R151) when `InRange(pc, 4)` is false, with the faulting address.
  Safe: the source stops there. -/
  | memoryFault (addr : Word)
  /-- Raised at dispatch for a fetched word whose class is ILLEGAL (rule R152), with the word. Safe: the source
  stops there. -/
  | illegalInstruction (word : Word)
deriving DecidableEq, Repr

/-- Where the model has no meaning to give. -/
inductive Refusal
  /-- An instruction whose arm of `exec` has no meaning yet. No arm raises it. Safe. -/
  | notModelled (mnemonic : String)
  /-- The configuration fails the constraints of rule R8: "A configuration that fails them is refused (the
  model defines no run for it)". Raised by `boot` and `step`. Safe. -/
  | badConfiguration
  /-- The image is longer than the window (rule R37, 93_implementation_defined.md I-12). Raised by `boot`. Safe. -/
  | imageTooLong
deriving DecidableEq, Repr

/-- The run status of rule R33. -/
inductive Status
  | running
  | halted (reason : Fault)
deriving DecidableEq, Repr

/-- The memory window's content: (address, byte) pairs, addresses strictly rising, no byte equal to
`memFill`. An address that is not listed reads as `memFill`. -/
abbrev Memory := List Host.Cell

/-- The architectural state. There are no flags, modes, control registers, accumulators, pending interrupts or
reservations (rules R25, R30, R32), so no field stands for one. -/
structure State where
  /-- `MEM_BASE` and `MEM_SIZE` (rule R8): fixed for a run, never written by a step. -/
  config : Config
  /-- `X` of rule R20. Every read and write goes through `readReg` and `writeReg`, where index 0 is special. -/
  regs : Vector Word 32
  /-- `PC` of rule R26. -/
  pc : Word
  /-- `Mem` of rule R29, by absolute address. -/
  mem : Memory
  /-- `Status` of rule R33. -/
  status : Status
deriving DecidableEq, Repr

/-- The state after reset for a configuration and a window content (rule R170). -/
def State.initial (c : Config) (m : Memory) : State :=
  { config := c, regs := initRegs c, pc := resetVector c, mem := m, status := .running }

/-- The machine right after reset in the reference configuration, with no image loaded (rule R171). -/
def State.reset : State := State.initial Config.reference []

end Sys2Proof.Machine
end

