-- ==== Sys2Proof/Machine/Ops.lean ====
section
/-! DEFINITION. The shared operations on registers and memory (10_state.md R20 to R37; 20_memory.md R40 to R51), the
commit of a step (40_execute_writeback.md R90, R98), and the raising of a fault (60_exceptions.md R150 to R158). -/

namespace Sys2Proof.Machine

/-! ### Registers -/

/-- `x[i]` (rule R21): index 0 reads 0 unconditionally, any other index its stored value. -/
def State.readReg (s : State) (r : Reg) : Word := if r = 0 then 0#32 else s.regs[r]

/-- `x[i] <- v` (rule R22): no effect for index 0, else the value is stored. -/
def State.writeReg (s : State) (r : Reg) (v : Word) : State :=
  if r = 0 then s else { s with regs := s.regs.set r v }

/-- `PC <- t`. -/
def State.setPc (s : State) (t : Word) : State := { s with pc := t }

/-- The commit of a completed step (rules R90 and R98): the register write, through the x0 rule, and the PC
write, together. Its value arguments are computed from the state before, so all reads of a step precede its
writes (rule R97). -/
def State.commit (s : State) (rd : Reg) (wdata nextPc : Word) : State := (s.writeReg rd wdata).setPc nextPc

/-! ### Memory -/

/-- The byte a memory content holds at an address, ignoring the window bounds. -/
def Memory.byteAt (m : Memory) (a : Nat) : Byte :=
  match m with
  | [] => memFill
  | (k, v) :: rest => if k = a then v else Memory.byteAt rest a

/-- The content with one byte set. It keeps the canonical form: setting a byte to `memFill` removes its entry. -/
def Memory.setByte (m : Memory) (a : Nat) (b : Byte) : Memory :=
  match m with
  | [] => if b = memFill then [] else [(a, b)]
  | (k, v) :: rest =>
    if a < k then (if b = memFill then (k, v) :: rest else (a, b) :: (k, v) :: rest)
    else if a = k then (if b = memFill then rest else (a, b) :: rest)
    else (k, v) :: Memory.setByte rest a b

/-- The content with a byte string set from an address upwards: the loader's "verbatim" copy (rule R37). -/
def Memory.setBytes (m : Memory) (a : Nat) : List Byte → Memory
  | [] => m
  | b :: rest => Memory.setBytes (Memory.setByte m a b) (a + 1) rest

/-- The canonical form: addresses strictly rising, no entry equal to what an unlisted address reads as. -/
abbrev Memory.wf (m : Memory) : Prop := m.Pairwise (fun p q => p.1 < q.1) ∧ ∀ p ∈ m, p.2 ≠ memFill

/-- Every listed address lies in the window of rule R29. -/
abbrev Memory.inWindow (c : Config) (m : Memory) : Prop :=
  ∀ p ∈ m, c.memBase.toNat ≤ p.1 ∧ p.1 < c.memBase.toNat + c.memSize

/-- `InRange(a, n)` (rule R41), in unbounded integers (decision D5). The bounds are written as
`u(a) + n <= MEM_BASE + MEM_SIZE`, which is the rule's inequality with 1 added on both sides, because natural
numbers have no `-1`. -/
def inRange (c : Config) (a : Word) (n : Nat) : Bool :=
  decide (c.memBase.toNat ≤ a.toNat) && decide (a.toNat + n ≤ c.memBase.toNat + c.memSize)

/-- `MemRead(addr, 1)` (rule R47, decision D23). -/
def State.readByte (s : State) (a : Word) : Except Fault Byte :=
  if inRange s.config a 1 then .ok (Memory.byteAt s.mem a.toNat) else .error (.memoryFault a)

/-- `MemRead(addr, 4)`, the source's `readWord` (rules R42 to R44): little-endian, any alignment, all four bytes or a
fault as a whole. -/
def State.readWord (s : State) (a : Word) : Except Fault Word :=
  if inRange s.config a 4 then
    .ok (wordOfBytes (Memory.byteAt s.mem a.toNat) (Memory.byteAt s.mem (a.toNat + 1))
      (Memory.byteAt s.mem (a.toNat + 2)) (Memory.byteAt s.mem (a.toNat + 3)))
  else .error (.memoryFault a)

/-- `Fetch(pc) = MemRead(pc, 4)` (rules R45 and R46). -/
def State.fetch (s : State) : Except Fault Word := s.readWord s.pc

/-- The word stored little-endian where the next fetch reads, if that address is in the window. It is no
operation of the core, which never writes memory (rule R49): it stands for the external loader (rule R173). -/
def State.placeAtPc (s : State) (w : Word) : State :=
  if inRange s.config s.pc 4 then { s with mem := Memory.setBytes s.mem s.pc.toNat (wordBytes w) } else s

/-! ### Faults -/

/-- Raising a fault (rules R98, R155 and R156): no register, PC or memory byte changes, and the status records the
fault. There is no trap vector, saved PC or mode to write (rule R157), and no return operation beside this one,
because no return-from-trap instruction exists and a fault is never cleared (rules R156 and R158). -/
def State.raise (s : State) (f : Fault) : State := { s with status := .halted f }

/-! ### What the driver sees -/

/-- The register-dump snapshot of rule R34. -/
structure Snapshot where
  regs : Vector Word 32
  pc : Word
deriving DecidableEq, Repr

/-- The snapshot is taken through the register read, so index 0 shows 0 (rule R34, decision D13). -/
def State.snapshot (s : State) : Snapshot := { regs := Vector.ofFn s.readReg, pc := s.pc }

/-- The result the driver receives from a step (rules R156 and R166): `Ok(())` for a completed step and `Err(kind)`
for a faulting one. There is none where no step exists: from a halted state, and in a refused configuration. -/
def driverResult : Host.Outcome State Fault Refusal → Option (Except Fault Unit)
  | .next t =>
    match t.status with
    | .running => some (.ok ())
    | .halted f => some (.error f)
  | .fault _ => none
  | .refused _ => none

end Sys2Proof.Machine
end

