-- ==== Sys2Proof/Machine/ControlTransfer.lean ====
section
/-! DEFINITION. The jumps (43_control_transfer.md R140 to R142). A target is not checked by the jump: the next fetch
applies the bounds to it, and any alignment is fetched (decision D7). There is no delay slot. -/

namespace Sys2Proof.Machine

/-- JAL (R141): `t <- pc + imm_J; x[rd] <- pc + 4; pc <- t`. -/
def execJal (rd : Reg) (offset : Word) (s : State) : Host.Outcome State Fault Refusal :=
  .next (s.commit rd (seqPc s.pc) (jalTarget s.pc offset))

/-- JALR (R142): `t <- (x[rs1] + imm_I) & 0xFFFFFFFE; x[rd] <- pc + 4; pc <- t`, with the old `x[rs1]` when
`rd = rs1` (rule R97, decision D12). -/
def execJalr (rd rs1 : Reg) (imm : Word) (s : State) : Host.Outcome State Fault Refusal :=
  .next (s.commit rd (seqPc s.pc) (jalrTarget (s.readReg rs1) imm))

end Sys2Proof.Machine
end

