-- ==== Sys2Proof/Machine/Flags.lean ====
section
/-! DEFINITION. Condition results. The core has no flags and no condition codes (10_state.md R25): SLTI and SLTIU
deliver their comparison into `x[rd]`, as the words computed here (40_execute_writeback.md R94). -/

namespace Sys2Proof.Machine

/-- `1` if `s(a) < s(b)` else `0`, as a `Word32` (ALU row SLT of rule R94). -/
def setLessSigned (a b : Word) : Word := if a.toInt < b.toInt then 1#32 else 0#32

/-- `1` if `u(a) < u(b)` else `0`, as a `Word32` (ALU row SLTU of rule R94). -/
def setLessUnsigned (a b : Word) : Word := if a.toNat < b.toNat then 1#32 else 0#32

end Sys2Proof.Machine
end

