-- ==== Sys2Proof/Machine/OpImm.lean ====
section
/-! DEFINITION. The integer register-immediate instructions, opcode 0x13 (41_op_imm.md R110 to R119), in the table's
order. -/

namespace Sys2Proof.Machine

/-- The family rule R110: the result goes to `x[rd]` through the x0 rule and the PC advances by 4. -/
def retire (rd : Reg) (result : Word) (s : State) : Host.Outcome State Fault Refusal :=
  .next (s.commit rd result (seqPc s.pc))

/-- ADDI (R111): `x[rd] <- x[rs1] + imm_I`. -/
def execAddi (rd rs1 : Reg) (imm : Word) (s : State) : Host.Outcome State Fault Refusal :=
  retire rd (s.readReg rs1 + imm) s

/-- SLLI (R112): `x[rd] <- x[rs1] << shamt`. -/
def execSlli (rd rs1 : Reg) (shamt : Shamt) (s : State) : Host.Outcome State Fault Refusal :=
  retire rd (shiftLeft (s.readReg rs1) shamt) s

/-- SLTI (R113): `x[rd] <- (s(x[rs1]) < s(imm_I)) ? 1 : 0`. -/
def execSlti (rd rs1 : Reg) (imm : Word) (s : State) : Host.Outcome State Fault Refusal :=
  retire rd (setLessSigned (s.readReg rs1) imm) s

/-- SLTIU (R114): `x[rd] <- (u(x[rs1]) < u(imm_I)) ? 1 : 0`, the immediate sign-extended first. -/
def execSltiu (rd rs1 : Reg) (imm : Word) (s : State) : Host.Outcome State Fault Refusal :=
  retire rd (setLessUnsigned (s.readReg rs1) imm) s

/-- XORI (R115): `x[rd] <- x[rs1] ^ imm_I`. -/
def execXori (rd rs1 : Reg) (imm : Word) (s : State) : Host.Outcome State Fault Refusal :=
  retire rd (s.readReg rs1 ^^^ imm) s

/-- SRLI (R116): `x[rd] <- x[rs1] >>u shamt`. -/
def execSrli (rd rs1 : Reg) (shamt : Shamt) (s : State) : Host.Outcome State Fault Refusal :=
  retire rd (shiftRightLogical (s.readReg rs1) shamt) s

/-- SRAI (R117): `x[rd] <- x[rs1] >>s shamt`. -/
def execSrai (rd rs1 : Reg) (shamt : Shamt) (s : State) : Host.Outcome State Fault Refusal :=
  retire rd (shiftRightArith (s.readReg rs1) shamt) s

/-- ORI (R118): `x[rd] <- x[rs1] | imm_I`. -/
def execOri (rd rs1 : Reg) (imm : Word) (s : State) : Host.Outcome State Fault Refusal :=
  retire rd (s.readReg rs1 ||| imm) s

/-- ANDI (R119): `x[rd] <- x[rs1] & imm_I`. -/
def execAndi (rd rs1 : Reg) (imm : Word) (s : State) : Host.Outcome State Fault Refusal :=
  retire rd (s.readReg rs1 &&& imm) s

end Sys2Proof.Machine
end

