-- ==== Sys2Proof/Machine/UpperImm.lean ====
section
/-! DEFINITION. The upper-immediate instructions (42_upper_immediate.md R130 to R132). -/

namespace Sys2Proof.Machine

/-- LUI (R131): `x[rd] <- imm_U; pc <- pc + 4`. -/
def execLui (rd : Reg) (imm : Word) (s : State) : Host.Outcome State Fault Refusal :=
  .next (s.commit rd imm (seqPc s.pc))

/-- AUIPC (R132): `x[rd] <- pc + imm_U; pc <- pc + 4`, with the address of the AUIPC itself. -/
def execAuipc (rd : Reg) (imm : Word) (s : State) : Host.Outcome State Fault Refusal :=
  .next (s.commit rd (s.pc + imm) (seqPc s.pc))

end Sys2Proof.Machine
end

