-- ==== Sys2Proof/Machine/Engine.lean ====
section
/-! DEFINITION. The fetch, decode, execute cycle (40_execute_writeback.md R90, R91; 60_exceptions.md R154, R156), which
Machine/Step.lean calls. -/

namespace Sys2Proof.Machine

/-- The driver's `execute(word)` (rule R90): an ILLEGAL word raises IllegalInstruction at dispatch (rule R152), any
other word runs its instruction. -/
def execute (word : Word) (s : State) : Host.Outcome State Fault Refusal :=
  match decodeWord word with
  | .ok i => exec i s
  | .error _ => .next (s.raise (.illegalInstruction word))

/-- `execute(fetch())` (rule R90, decision D14): a MemoryFault of the fetch comes before any decoding (rule R154). -/
def cycle (s : State) : Host.Outcome State Fault Refusal :=
  match s.fetch with
  | .ok word => execute word s
  | .error f => .next (s.raise f)

/-- One step. From a halted state there is no transition (rule R91): the outcome is the recorded fault. A
configuration outside the constraints of rule R8 has no run. -/
def stepOnce (s : State) : Host.Outcome State Fault Refusal :=
  match s.status with
  | .halted f => .fault f
  | .running => if s.config.valid then cycle s else .refused .badConfiguration

end Sys2Proof.Machine
end

