-- ==== Sys2Proof/Machine/Step.lean ====
section
/-! DEFINITION. One step of the core (40_execute_writeback.md R90), and the placing of an instruction word where the
next step fetches. -/

namespace Sys2Proof.Machine

/-- One step: fetch, decode, execute, commit. -/
def step (s : State) : Host.Outcome State Fault Refusal := stepOnce s

/-- The state with the low `nbits` bits of `w`, zeros above, stored little-endian at the PC. -/
def State.withFetchWord (s : State) (nbits w : Nat) : State := s.placeAtPc (BitVec.ofNat 32 (w % 2 ^ nbits))

end Sys2Proof.Machine
end

