-- ==== Sys2Proof/Machine/Assembler.lean ====
section
/-! DEFINITION. Names, syntax and pseudo-instructions (10_state.md R23; 30_encoding.md R78, R79). The spec marks them as
general knowledge: nothing that runs depends on this file. -/

namespace Sys2Proof.Machine

/-- The ABI names of rule R23, by index. -/
def abiNames : List String :=
  ["zero", "ra", "sp", "gp", "tp", "t0", "t1", "t2", "s0", "s1", "a0", "a1", "a2", "a3", "a4", "a5"] ++
  ["a6", "a7", "s2", "s3", "s4", "s5", "s6", "s7", "s8", "s9", "s10", "s11", "t3", "t4", "t5", "t6"]

/-- `x0` to `x31` (rule R78). -/
def regName (r : Reg) : String := "x" ++ toString r.val

/-- `op rd, rs1, n`. -/
def asmI (op : String) (rd rs1 : Reg) (n : String) : String :=
  op ++ " " ++ regName rd ++ ", " ++ regName rs1 ++ ", " ++ n

/-- The assembler text of an instruction (rule R78): destination first, immediates signed, the upper immediate as the
unsigned 20-bit number `inst[31:12]`, JALR as `jalr rd, imm(rs1)`. -/
def asm : Instr → String
  | .addi rd rs1 imm => asmI "addi" rd rs1 (toString imm.toInt)
  | .slli rd rs1 n => asmI "slli" rd rs1 (toString n.val)
  | .slti rd rs1 imm => asmI "slti" rd rs1 (toString imm.toInt)
  | .sltiu rd rs1 imm => asmI "sltiu" rd rs1 (toString imm.toInt)
  | .xori rd rs1 imm => asmI "xori" rd rs1 (toString imm.toInt)
  | .srli rd rs1 n => asmI "srli" rd rs1 (toString n.val)
  | .srai rd rs1 n => asmI "srai" rd rs1 (toString n.val)
  | .ori rd rs1 imm => asmI "ori" rd rs1 (toString imm.toInt)
  | .andi rd rs1 imm => asmI "andi" rd rs1 (toString imm.toInt)
  | .lui rd imm => "lui " ++ regName rd ++ ", " ++ toString (imm.toNat / 4096)
  | .auipc rd imm => "auipc " ++ regName rd ++ ", " ++ toString (imm.toNat / 4096)
  | .jal rd offset => "jal " ++ regName rd ++ ", " ++ toString offset.toInt
  | .jalr rd rs1 imm => "jalr " ++ regName rd ++ ", " ++ toString imm.toInt ++ "(" ++ regName rs1 ++ ")"

/-- The pseudo-instructions of rule R79. `jalTo` is `jal offset`, `jalrTo` is `jalr rs`, and `la` takes the
symbol's offset from the pc of its first instruction. -/
inductive Pseudo
  | nop
  | mv (rd rs : Reg)
  | not (rd rs : Reg)
  | seqz (rd rs : Reg)
  | li (rd : Reg) (imm : Word)
  | j (offset : Word)
  | jalTo (offset : Word)
  | jr (rs : Reg)
  | jalrTo (rs : Reg)
  | ret
  | call (offset : Word)
  | tail (offset : Word)
  | la (rd : Reg) (offset : Word)
deriving DecidableEq, Repr

/-- `lo = sext_12(imm[11:0])` of rule R79. -/
def loPart (v : Word) : Word := sext 12 (v.extractLsb' 0 12)

/-- `hi` of rule R79 as the upper-immediate pattern: `imm - lo`, whose low 12 bits are zero. -/
def hiPart (v : Word) : Word := v - loPart v

/-- The expansion table of rule R79. -/
def Pseudo.expand : Pseudo → List Instr
  | .nop => [.addi 0 0 0#32]
  | .mv rd rs => [.addi rd rs 0#32]
  | .not rd rs => [.xori rd rs 0xFFFFFFFF#32]
  | .seqz rd rs => [.sltiu rd rs 1#32]
  | .li rd imm =>
    if immIFits imm then [.addi rd 0 imm]
    else if loPart imm = 0#32 then [.lui rd (hiPart imm)]
    else [.lui rd (hiPart imm), .addi rd rd (loPart imm)]
  | .j offset => [.jal 0 offset]
  | .jalTo offset => [.jal 1 offset]
  | .jr rs => [.jalr 0 rs 0#32]
  | .jalrTo rs => [.jalr 1 rs 0#32]
  | .ret => [.jalr 0 1 0#32]
  | .call offset => [.auipc 1 (hiPart offset), .jalr 1 1 (loPart offset)]
  | .tail offset => [.auipc 6 (hiPart offset), .jalr 0 6 (loPart offset)]
  | .la rd offset => [.auipc rd (hiPart offset), .addi rd rd (loPart offset)]

/-- The instructions of a list run one after another, without fetching: the meaning of an expansion. -/
def execAll : List Instr → State → Host.Outcome State Fault Refusal
  | [], s => .next s
  | i :: rest, s =>
    match exec i s with
    | .next t => execAll rest t
    | .fault f => .fault f
    | .refused r => .refused r

end Sys2Proof.Machine
end

