-- ==== Sys2Proof/Machine/Boot.lean ====
section
/-! DEFINITION. How a run begins (70_reset_and_hazards.md R170 to R173): the configuration, the loader's result and reset. -/

namespace Sys2Proof.Machine

/-- The boot order of rule R173: the configuration is checked (rule R8), the image is placed verbatim at
`MEM_BASE` (rule R37), and reset sets the registers, PC and status. The whole window content `MEM_INIT` is an image of
`MEM_SIZE` bytes; a shorter image leaves `0x00` bytes after it (decision D3). -/
def boot (c : Config) (image : List Byte) : Except Refusal State :=
  if c.valid then
    if image.length ≤ c.memSize then .ok (State.initial c (Memory.setBytes [] c.memBase.toNat image))
    else .error .imageTooLong
  else .error .badConfiguration

end Sys2Proof.Machine
end

