-- ==== Sys2Proof/Machine/Datapath.lean ====
section
/-! DEFINITION. The three sub-blocks seen as a datapath (40_execute_writeback.md R92 to R99): the ALU, the PC update unit,
the write-back unit and the control table. The instruction rules govern (rule R99), so `exec` does not go through
this file; Sys2Proof/Certificates states that the two agree. -/

namespace Sys2Proof.Machine

/-- The ALU operations of rule R94. -/
inductive AluOp
  | add | slt | sltu | xor | or | and | sll | srl | sra
deriving DecidableEq, Repr

/-- `a_sel` of rule R99. -/
inductive ASel
  | rs1 | pc
deriving DecidableEq, Repr

/-- `b_sel` of rule R99. -/
inductive BSel
  | immI | immU
deriving DecidableEq, Repr

/-- `wb_sel` of rule R96. -/
inductive WbSel
  | alu | immU | link
deriving DecidableEq, Repr

/-- `pc_sel` of rule R95. -/
inductive PcSel
  | seq | jal | jalr
deriving DecidableEq, Repr

/-- One row of the control table of rule R99. `alu` is none where the row's three ALU columns are unused. -/
structure Control where
  alu : Option (AluOp × ASel × BSel)
  wbSel : WbSel
  pcSel : PcSel
deriving DecidableEq, Repr

/-- `b[4:0]`, the ALU's shift amount (rule R94). -/
def aluShamt (b : Word) : Shamt := (b.extractLsb' 0 5).toFin

/-- The ALU of rule R94. -/
def alu (op : AluOp) (a b : Word) : Word :=
  match op with
  | .add => a + b
  | .slt => setLessSigned a b
  | .sltu => setLessUnsigned a b
  | .xor => a ^^^ b
  | .or => a ||| b
  | .and => a &&& b
  | .sll => shiftLeft a (aluShamt b)
  | .srl => shiftRightLogical a (aluShamt b)
  | .sra => shiftRightArith a (aluShamt b)

/-- The control table of rule R99; ILLEGAL commits nothing, so it has no row. -/
def controlTable : InstrClass → Option Control
  | .addi  => some ⟨some (.add, .rs1, .immI), .alu, .seq⟩
  | .slli  => some ⟨some (.sll, .rs1, .immI), .alu, .seq⟩
  | .slti  => some ⟨some (.slt, .rs1, .immI), .alu, .seq⟩
  | .sltiu => some ⟨some (.sltu, .rs1, .immI), .alu, .seq⟩
  | .xori  => some ⟨some (.xor, .rs1, .immI), .alu, .seq⟩
  | .srli  => some ⟨some (.srl, .rs1, .immI), .alu, .seq⟩
  | .srai  => some ⟨some (.sra, .rs1, .immI), .alu, .seq⟩
  | .ori   => some ⟨some (.or, .rs1, .immI), .alu, .seq⟩
  | .andi  => some ⟨some (.and, .rs1, .immI), .alu, .seq⟩
  | .lui   => some ⟨none, .immU, .seq⟩
  | .auipc => some ⟨some (.add, .pc, .immU), .alu, .seq⟩
  | .jal   => some ⟨none, .link, .jal⟩
  | .jalr  => some ⟨some (.add, .rs1, .immI), .link, .jalr⟩
  | .illegal => none

/-- The register-file read port and the operand selectors in front of the ALU (rules R93 and R99). There is no result
where the class does not use the ALU. -/
def aluResult (c : Control) (d : Decoded) (s : State) : Option Word :=
  c.alu.map fun (op, aSel, bSel) =>
    let a := match aSel with
      | .rs1 => s.readReg d.rs1
      | .pc => s.pc
    let b := match bSel with
      | .immI => d.immI
      | .immU => d.immU
    alu op a b

/-- The PC update unit of rule R95. -/
def pcUpdate (sel : PcSel) (pc immJ : Word) (aluOut : Option Word) : Option Word :=
  match sel with
  | .seq => some (seqPc pc)
  | .jal => some (pc + immJ)
  | .jalr => aluOut.map (fun r => r &&& 0xFFFFFFFE#32)

/-- The write-back selector of rule R96. -/
def writeBackData (sel : WbSel) (aluOut : Option Word) (immU seqpc : Word) : Option Word :=
  match sel with
  | .alu => aluOut
  | .immU => some immU
  | .link => some seqpc

/-- The state a decoded word commits by the control table (rules R90 and R99), or none where nothing commits. -/
def datapath (d : Decoded) (s : State) : Option State :=
  match controlTable d.cls with
  | none => none
  | some c =>
    match writeBackData c.wbSel (aluResult c d s) d.immU (seqPc s.pc),
        pcUpdate c.pcSel s.pc d.immJ (aluResult c d s) with
    | some wdata, some nextPc => some (s.commit d.rd wdata nextPc)
    | _, _ => none

end Sys2Proof.Machine
end

