-- ==== Sys2Proof/Safety.lean ====
section
/-! DEFINITION. The terms claims are stated in: how an instruction completes, why a run halted, the invariant of a
state, and a safe run. -/

namespace Sys2Proof.Machine

/-- `t` is `s` with the result `v` written to `x[rd]` through the x0 rule and the PC at `p`, and nothing else: every
other register, every byte of memory, the configuration and the run status are as before. -/
structure Commits (s t : State) (rd : Reg) (v p : Word) : Prop where
  result : t.readReg rd = if rd = 0 then 0#32 else v
  others : ∀ r, r ≠ rd → t.readReg r = s.readReg r
  pc : t.pc = p
  bytes : ∀ a, t.readByte a = s.readByte a
  mem : t.mem = s.mem
  config : t.config = s.config
  status : t.status = s.status

/-- The instruction completes in `s` (its outcome is a next state), and that state commits `v` and `p`. -/
def CompletesWith (i : Instr) (s : State) (rd : Reg) (v p : Word) : Prop :=
  ∃ t, exec i s = .next t ∧ Commits s t rd v p

/-- The next step fetches at the PC: the fetch gives the four bytes there, little-endian, and a step of the running machine
executes that word. -/
def FetchesBytesAtPc (t : State) : Prop :=
  ∃ w, t.fetch = .ok w ∧
    (∀ k j, k < 4 → j < 8 → w.getLsbD (8 * k + j) = (Memory.byteAt t.mem (t.pc.toNat + k)).getLsbD j) ∧
    (t.status = .running → t.config.valid = true → step t = execute w t)

/-- Every word that belongs to a row of the opcode table (`word & mask = match`) decodes to the instruction `mk` makes of
the word's fields. -/
def DecodesRow (mask matchBits : Word) (mk : Word → Instr) : Prop :=
  ∀ w, w &&& mask = matchBits → decodeWord w = .ok (mk w)

/-- The fault a status records is the one the state itself shows (decision D9: the information is derivable from `PC` and
`Fetch(PC)`): a PC out of range, or a fetched word whose class is ILLEGAL. -/
def HaltExplained (s : State) (f : Fault) : Prop :=
  (f = .memoryFault s.pc ∧ inRange s.config s.pc 4 = false) ∨
  (∃ w, s.fetch = .ok w ∧ classify w = .illegal ∧ f = .illegalInstruction w)

/-- What holds in every state of a run: the configuration meets rule R8, the storage behind x0 holds 0, the PC is
even (rule R28), memory is canonical and inside the window (rule R29), and a halt is explained. -/
structure State.Inv (s : State) : Prop where
  configValid : s.config.valid = true
  zeroSlot : s.regs[(0 : Reg)] = 0#32
  pcEven : s.pc.toNat % 2 = 0
  memWf : Memory.wf s.mem
  memInWindow : Memory.inWindow s.config s.mem
  haltExplained : ∀ f, s.status = .halted f → HaltExplained s f

/-- The jump target, if the instruction has one, is a multiple of 4: the condition under which rule R28 keeps the PC
word-aligned. -/
def AlignedTarget : Instr → State → Prop
  | .jal _ offset, _ => offset.toNat % 4 = 0
  | .jalr _ rs1 imm, s => (jalrTarget (s.readReg rs1) imm).toNat % 4 = 0
  | .addi _ _ _, _ | .slli _ _ _, _ | .slti _ _ _, _ | .sltiu _ _ _, _ | .xori _ _ _, _ => True
  | .srli _ _ _, _ | .srai _ _ _, _ | .ori _ _ _, _ | .andi _ _ _, _ => True
  | .lui _ _, _ | .auipc _ _, _ => True

/-- A jump is JAL or JALR. -/
def IsJump : Instr → Prop
  | .jal _ _ | .jalr _ _ _ => True
  | .addi _ _ _ | .slli _ _ _ | .slti _ _ _ | .sltiu _ _ _ | .xori _ _ _ => False
  | .srli _ _ _ | .srai _ _ _ | .ori _ _ _ | .andi _ _ _ => False
  | .lui _ _ | .auipc _ _ => False

/-- `t` is reached from the boot of a configuration and image after `k` steps (rule R173). -/
def ReachedBy (c : Config) (image : List Byte) (k : Nat) (t : State) : Prop :=
  ∃ s, boot c image = .ok s ∧ Host.Core.run Sys2Proof.core k s = .next t

/-- A run of `k` steps is safe when all of them complete without a fault. -/
def SafeRun (k : Nat) (s : State) : Prop :=
  ∃ t : State, Host.Core.run Sys2Proof.core k s = .next t ∧ t.status = .running

end Sys2Proof.Machine
end

