-- ==== Sys2Proof/Certificates/Slice0/Obligations.lean ====
section
/-! DEFINITION. The statements for the provers. Each docstring names the rule or section of spec/ it formalises, and,
where a clause rests on a decision the spec marks as its own, the decision and the log entry. -/

open Sys2Proof Sys2Proof.Machine

/-! ### The decoder: fields, immediates, classification -/

/-- 30_encoding.md section 1, the table of field positions: every field is extracted from every word. -/
def Obligations.DecoderExtractsEveryFieldOfEveryWord : Prop :=
  ∀ w : Word,
    (extract w).opcode.toNat = w.toNat % 128 ∧
    (extract w).inst = w ∧
    (extract w).rd.val = w.toNat / 2 ^ 7 % 32 ∧
    (extract w).funct3.val = w.toNat / 2 ^ 12 % 8 ∧
    (extract w).rs1.val = w.toNat / 2 ^ 15 % 32 ∧
    (extract w).rs2.val = w.toNat / 2 ^ 20 % 32 ∧
    (extract w).funct7.val = w.toNat / 2 ^ 25 % 128

/-- R63: the I-type immediate, its range, its use by JALR, and the rule's example. -/
def Obligations.ImmediateIIsSignExtendedTopField : Prop :=
  (∀ (w : Word) (k : Nat), k < 32 →
    (extract w).immI.getLsbD k = if k < 12 then w.getLsbD (20 + k) else w.getLsbD 31) ∧
  (∀ w : Word, -2048 ≤ (extract w).immI.toInt ∧ (extract w).immI.toInt ≤ 2047) ∧
  (∀ w : Word, classify w = .jalr → decodeWord w = .ok (.jalr (rdOf w) (rs1Of w) (extract w).immI)) ∧
  (extract 0xFFF18093#32).immI = 0xFFFFFFFF#32

/-- R64: the U-type immediate is the word with its low 12 bits cleared, takes exactly the values whose low 12 bits are
zero, and, read as signed, goes in steps of 4096; and the rule's example. -/
def Obligations.ImmediateUIsUpperTwentyBits : Prop :=
  (∀ w : Word, (extract w).immU = w &&& 0xFFFFF000#32) ∧
  (∀ v : Word, v &&& 0x00000FFF#32 = 0#32 → ∃ w, (extract w).immU = v) ∧
  (∀ w : Word, (extract w).immU.toInt % 4096 = 0 ∧ -2147483648 ≤ (extract w).immU.toInt ∧
    (extract w).immU.toInt ≤ 2147479552) ∧
  (extract 0x123450B7#32).immU = 0x12345000#32

/-- R65: the J-type immediate bit by bit, its range, its evenness, and the rule's examples. -/
def Obligations.ImmediateJIsTheScrambledOffset : Prop :=
  (∀ (w : Word) (k : Nat), k < 32 →
    (extract w).immJ.getLsbD k =
      if k = 0 then false
      else if k ≤ 10 then w.getLsbD (k + 20)
      else if k = 11 then w.getLsbD 20
      else if k ≤ 19 then w.getLsbD k
      else w.getLsbD 31) ∧
  (∀ w : Word, (extract w).immJ.toInt % 2 = 0 ∧ -1048576 ≤ (extract w).immJ.toInt ∧
    (extract w).immJ.toInt ≤ 1048574) ∧
  (extract 0x008000EF#32).immJ = 0x00000008#32 ∧
  (extract 0xFFDFF0EF#32).immJ = 0xFFFFFFFC#32

/-- R67: under opcode 0x13 and funct3 5, bit 30, which is bit 5 of funct7 and not its high bit, selects SRLI or SRAI. -/
def Obligations.BitThirtySelectsTheRightShift : Prop :=
  ∀ w : Word,
    ((extract w).funct7.val.testBit 5 = w.getLsbD 30 ∧ (extract w).funct7.val.testBit 6 = w.getLsbD 31) ∧
    (opcodeOf w = 0x13#7 → funct3Of w = 5 →
      (w.getLsbD 30 = false → decodeWord w = .ok (.srli (rdOf w) (rs1Of w) (shamtOf w))) ∧
      (w.getLsbD 30 = true → decodeWord w = .ok (.srai (rdOf w) (rs1Of w) (shamtOf w))))

/-- R70: the class of every word, by the numbers of its opcode and funct3 fields and by bit 30, and that no other bit
takes part (the bits that do are those of the mask 0x4000707F). -/
def Obligations.ClassificationFollowsOpcodeAndFunct3 : Prop :=
  (∀ w : Word, w.toNat % 128 = 0x13 →
    (w.toNat / 4096 % 8 = 0 → classify w = .addi) ∧
    (w.toNat / 4096 % 8 = 1 → classify w = .slli) ∧
    (w.toNat / 4096 % 8 = 2 → classify w = .slti) ∧
    (w.toNat / 4096 % 8 = 3 → classify w = .sltiu) ∧
    (w.toNat / 4096 % 8 = 4 → classify w = .xori) ∧
    (w.toNat / 4096 % 8 = 5 → classify w = if w.getLsbD 30 then .srai else .srli) ∧
    (w.toNat / 4096 % 8 = 6 → classify w = .ori) ∧
    (w.toNat / 4096 % 8 = 7 → classify w = .andi)) ∧
  (∀ w : Word, w.toNat % 128 = 0x37 → classify w = .lui) ∧
  (∀ w : Word, w.toNat % 128 = 0x17 → classify w = .auipc) ∧
  (∀ w : Word, w.toNat % 128 = 0x6F → classify w = .jal) ∧
  (∀ w : Word, w.toNat % 128 = 0x67 → classify w = if w.toNat / 4096 % 8 = 0 then .jalr else .illegal) ∧
  (∀ w : Word, w.toNat % 128 ≠ 0x13 → w.toNat % 128 ≠ 0x37 → w.toNat % 128 ≠ 0x17 → w.toNat % 128 ≠ 0x6F →
    w.toNat % 128 ≠ 0x67 → classify w = .illegal) ∧
  (∀ w v : Word, w &&& 0x4000707F#32 = v &&& 0x4000707F#32 → classify w = classify v)

/-- spec/opcode_table.json: a word has a row's class exactly when it meets the row's mask and match, so no two rows
overlap, and its class is ILLEGAL exactly when it meets no row. -/
def Obligations.ClassificationIsTheOpcodeTable : Prop :=
  (∀ row ∈ opcodeTable, ∀ w : Word, classify w = row.1 ↔ w &&& row.2.1 = row.2.2) ∧
  (∀ w : Word, classify w = .illegal ↔ ∀ row ∈ opcodeTable, w &&& row.2.1 ≠ row.2.2)

/-- 30_encoding.md section 2: exactly which words are ILLEGAL, and the cases given by their bits. 60_exceptions.md section 3
and 92_eei_decisions.md D8 and D9: executing one raises IllegalInstruction and executing any other does not. That raising it
is a next state which records the word and changes nothing else is the spec's decision D8 and D9 and the model's choice
(log entry 4). -/
def Obligations.IllegalWordsAreExactlyTheUnhandledOnes : Prop :=
  (∀ w : Word, classify w = .illegal ↔
    ((w.toNat % 128 ≠ 0x13 ∧ w.toNat % 128 ≠ 0x37 ∧ w.toNat % 128 ≠ 0x17 ∧ w.toNat % 128 ≠ 0x6F ∧
      w.toNat % 128 ≠ 0x67) ∨ (w.toNat % 128 = 0x67 ∧ w.toNat / 4096 % 8 ≠ 0))) ∧
  (∀ (w : Word) (s : State), s.status = .running →
    (execute w s = .next (s.raise (.illegalInstruction w)) ↔ classify w = .illegal)) ∧
  classify 0x00000000#32 = .illegal ∧
  classify 0xFFFFFFFF#32 = .illegal ∧
  (∀ w : Word, w.toNat % 4 ≠ 3 → classify w = .illegal)

/-- 30_encoding.md sections 1 and 2 and 92_eei_decisions.md D10 (log entry 6): the bits a class does not read change
nothing about the decoded instruction. -/
def Obligations.UncheckedBitsDoNotChangeTheInstruction : Prop :=
  ∀ w v : Word, classify w ≠ .illegal →
    w &&& (classify w).readMask = v &&& (classify w).readMask → decodeWord v = decodeWord w

/-- 95_test_vectors.md sections 1 and 2: one word of every row of the opcode table, written out from its encoding, decodes
to its instruction. -/
def Obligations.SpecWordsDecodeToTheirInstructions : Prop :=
  decodeWord 0x00500093#32 = .ok (.addi 1 0 5#32) ∧
  decodeWord 0x00419093#32 = .ok (.slli 1 3 4) ∧
  decodeWord 0x0001A093#32 = .ok (.slti 1 3 0#32) ∧
  decodeWord 0xFFF1B093#32 = .ok (.sltiu 1 3 0xFFFFFFFF#32) ∧
  decodeWord 0x5551C093#32 = .ok (.xori 1 3 0x555#32) ∧
  decodeWord 0x0041D093#32 = .ok (.srli 1 3 4) ∧
  decodeWord 0x41F1D093#32 = .ok (.srai 1 3 31) ∧
  decodeWord 0x8001E093#32 = .ok (.ori 1 3 0xFFFFF800#32) ∧
  decodeWord 0x0FF1F093#32 = .ok (.andi 1 3 0xFF#32) ∧
  decodeWord 0x123450B7#32 = .ok (.lui 1 0x12345000#32) ∧
  decodeWord 0x80000097#32 = .ok (.auipc 1 0x80000000#32) ∧
  decodeWord 0xFFDFF0EF#32 = .ok (.jal 1 0xFFFFFFFC#32) ∧
  decodeWord 0x004181E7#32 = .ok (.jalr 3 3 4#32) ∧
  decodeWord 0x000190E7#32 = .error (.illegal 0x000190E7#32)

/-! ### The encoder -/

/-- 30_encoding.md section 3: the immediate encoders write only immediate bits, a value of the stated domain comes
back, and re-encoding the immediate of any word reproduces the word. -/
def Obligations.ImmediateEncodersRoundTrip : Prop :=
  (∀ v w : Word, immIFits v = true → immI (encI v w) = v) ∧
  (∀ v w : Word, immUFits v = true → immU (encU v w) = v) ∧
  (∀ v w : Word, immJFits v = true → immJ (encJ v w) = v) ∧
  (∀ w : Word, encI (immI w) w = w ∧ encU (immU w) w = w ∧ encJ (immJ w) w = w) ∧
  (∀ v w : Word, encI v w &&& 0x000FFFFF#32 = w &&& 0x000FFFFF#32 ∧ encU v w &&& 0x00000FFF#32 = w &&& 0x00000FFF#32 ∧
    encJ v w &&& 0x00000FFF#32 = w &&& 0x00000FFF#32)

/-- 30_encoding.md sections 1 to 3: decoding the word of a well-formed instruction gives the instruction back, with every
operand. -/
def Obligations.DecodeOfEncodeIsTheInstruction : Prop :=
  ∀ i : Instr, i.wellFormed = true → decodeWord (encode i) = .ok i

/-- 30_encoding.md sections 1 to 3: what the decoder reads is well formed, and encoding it reproduces the word in every bit
its class reads. Which bits of a shift are not read is 92_eei_decisions.md D10 (log entry 6), and that the encoder writes
zeros there is the model's choice (log entry 17). -/
def Obligations.EncodeOfDecodeIsTheWordReadBits : Prop :=
  ∀ (w : Word) (i : Instr), decodeWord w = .ok i →
    i.wellFormed = true ∧ classify w = i.cls ∧ encode i = w &&& (classify w).readMask

/-! ### Registers -/

/-- R21 and R22: index 0 reads 0 and discards writes, any other index reads what was written last, and every destination
write of an instruction goes through that rule. -/
def Obligations.RegisterReadsAndWritesFollowTheZeroRule : Prop :=
  (∀ s : State, s.readReg 0 = 0#32) ∧
  (∀ (s : State) (r : Reg), r ≠ 0 → s.readReg r = s.regs[r]) ∧
  (∀ (s : State) (v : Word), s.writeReg 0 v = s) ∧
  (∀ (s : State) (r : Reg) (v : Word), r ≠ 0 →
    (s.writeReg r v).readReg r = v ∧ ∀ q, q ≠ r → (s.writeReg r v).readReg q = s.readReg q) ∧
  (∀ (i : Instr) (s : State), ∃ (t : State) (v : Word), exec i s = .next t ∧ t.regs = (s.writeReg i.rd v).regs)

/-- 10_state.md section 1 (access by instruction): the result and the next PC of an instruction depend on no register but
`x[rs1]`, and on none at all for LUI, AUIPC and JAL. -/
def Obligations.ResultDependsOnlyOnSourceRegisterAndPc : Prop :=
  ∀ (i : Instr) (s s' : State), s.pc = s'.pc → (∀ r, i.source = some r → s.readReg r = s'.readReg r) →
    ∃ t t', exec i s = .next t ∧ exec i s' = .next t' ∧ t.readReg i.rd = t'.readReg i.rd ∧ t.pc = t'.pc

/-- 10_state.md section 4 and 92_eei_decisions.md D13 (log entry 10): the snapshot shows the 32 register reads, 0 at index 0,
and the PC. -/
def Obligations.SnapshotShowsRegisterReadsAndPc : Prop :=
  ∀ s : State, s.snapshot.pc = s.pc ∧ s.snapshot.regs[(0 : Reg)] = 0#32 ∧
    ∀ r : Reg, s.snapshot.regs[r] = s.readReg r

/-! ### Memory -/

/-- R42 to R45: reading a word faults with the address exactly when it or the address 3 above it is outside the window, and
otherwise gives the four bytes little-endian, at any alignment; the fetch is that read at the PC. -/
def Obligations.WordReadIsLittleEndianAndBoundsChecked : Prop :=
  (∀ (s : State) (a : Word),
    (a.toNat < s.config.memBase.toNat ∨ a.toNat + 3 ≥ s.config.memBase.toNat + s.config.memSize →
      s.readWord a = .error (.memoryFault a)) ∧
    (s.config.memBase.toNat ≤ a.toNat → a.toNat + 3 < s.config.memBase.toNat + s.config.memSize →
      ∃ w, s.readWord a = .ok w ∧
        ∀ k j, k < 4 → j < 8 → w.getLsbD (8 * k + j) = (Memory.byteAt s.mem (a.toNat + k)).getLsbD j)) ∧
  (∀ s : State, s.fetch = s.readWord s.pc) ∧
  (∀ (s : State) (w : Word), s.fetch = .ok w → s.readByte s.pc = .ok (w.extractLsb' 0 8))

/-- 20_memory.md section 3 and 92_eei_decisions.md D23 (log entry 11): the byte read, bounds-checked like the word read. -/
def Obligations.ByteReadIsBoundsChecked : Prop :=
  ∀ (s : State) (a : Word),
    (s.config.memBase.toNat ≤ a.toNat → a.toNat < s.config.memBase.toNat + s.config.memSize →
      s.readByte a = .ok (Memory.byteAt s.mem a.toNat)) ∧
    (a.toNat < s.config.memBase.toNat ∨ a.toNat ≥ s.config.memBase.toNat + s.config.memSize →
      s.readByte a = .error (.memoryFault a))

/-- 20_memory.md section 1 and 92_eei_decisions.md D5 (log entry 5): the in-range test is the rule's inequality over the
integers, where no sum wraps. -/
def Obligations.InRangeIsTheIntegerInequality : Prop :=
  ∀ (c : Config) (a : Word) (n : Nat),
    inRange c a n = true ↔
      ((c.memBase.toNat : Int) ≤ a.toNat ∧ (a.toNat : Int) + n - 1 ≤ (c.memBase.toNat : Int) + c.memSize - 1)

/-- R49: memory is not modified during a run, so in every state reached from the boot of a window content the memory is that
content, byte for byte. The whole content is the launch argument, as an image that fills the window. -/
def Obligations.ReachableMemoryIsTheLaunchContent : Prop :=
  ∀ (c : Config) (image : List Byte) (s t : State) (k : Nat), boot c image = .ok s → image.length = c.memSize →
    Host.Core.run Sys2Proof.core k s = .next t →
    t.mem = s.mem ∧ ∀ (j : Nat) (h : j < image.length),
      t.readByte (BitVec.ofNat 32 (c.memBase.toNat + j)) = .ok image[j]

/-! ### The ALU and the datapath -/

/-- 40_execute_writeback.md section 2: every row of the ALU table, over the numbers and bits the row names, and the shift
amount of an instruction's immediate. The ALU as a sub-block, and its operation names, are the spec's own (92_eei_decisions.md D1,
log entry 12). -/
def Obligations.AluComputesItsTable : Prop :=
  ∀ a b : Word,
    (alu .add a b).toNat = (a.toNat + b.toNat) % 2 ^ 32 ∧
    (alu .slt a b).toNat = (if a.toInt < b.toInt then 1 else 0) ∧
    (alu .sltu a b).toNat = (if a.toNat < b.toNat then 1 else 0) ∧
    (∀ k, (alu .xor a b).getLsbD k = ((a.getLsbD k).xor (b.getLsbD k))) ∧
    (∀ k, (alu .or a b).getLsbD k = (a.getLsbD k || b.getLsbD k)) ∧
    (∀ k, (alu .and a b).getLsbD k = (a.getLsbD k && b.getLsbD k)) ∧
    (alu .sll a b).toNat = a.toNat * 2 ^ (b.toNat % 32) % 2 ^ 32 ∧
    (alu .srl a b).toNat = a.toNat / 2 ^ (b.toNat % 32) ∧
    (∀ k, k < 32 → (alu .sra a b).getLsbD k =
      if k + b.toNat % 32 < 32 then a.getLsbD (k + b.toNat % 32) else a.getLsbD 31) ∧
    (b.toNat % 32 = 0 → alu .sll a b = a ∧ alu .srl a b = a ∧ alu .sra a b = a) ∧
    (∀ w, aluShamt (immI w) = shamtOf w)

/-- 40_execute_writeback.md section 4 and 92_eei_decisions.md D1 (log entry 12): for every word and state, what the control
table makes the datapath commit is what the instruction's own rule commits, and an ILLEGAL word commits nothing. -/
def Obligations.DatapathAgreesWithInstructionRules : Prop :=
  (∀ (w : Word) (i : Instr) (s : State), decodeWord w = .ok i →
    ∃ t, exec i s = .next t ∧ datapath (extract w) s = some t) ∧
  (∀ (w : Word) (s : State), classify w = .illegal → datapath (extract w) s = none)

/-! ### The integer register-immediate instructions -/

/-- R111: ADDI's encoding and effect, and the rule's example. -/
def Obligations.AddiAddsItsImmediate : Prop :=
  DecodesRow 0x0000707F#32 0x00000013#32 (fun w => .addi (rdOf w) (rs1Of w) (immI w)) ∧
  (∀ (rd rs1 : Reg) (imm : Word) (s : State),
    CompletesWith (.addi rd rs1 imm) s rd (s.readReg rs1 + imm) (s.pc + 4#32)) ∧
  decodeWord 0x00500093#32 = .ok (.addi 1 0 5#32)

/-- 41_op_imm.md, SLLI, and 92_eei_decisions.md D10 (log entry 6): SLLI's encoding, bits 31 to 25 unchecked, and its effect. -/
def Obligations.SlliShiftsLeft : Prop :=
  DecodesRow 0x0000707F#32 0x00001013#32 (fun w => .slli (rdOf w) (rs1Of w) (shamtOf w)) ∧
  (∀ (rd rs1 : Reg) (n : Shamt) (s : State),
    CompletesWith (.slli rd rs1 n) s rd (s.readReg rs1 <<< n.val) (s.pc + 4#32))

/-- R113: SLTI's encoding and effect, and the rule's example. -/
def Obligations.SltiComparesSigned : Prop :=
  DecodesRow 0x0000707F#32 0x00002013#32 (fun w => .slti (rdOf w) (rs1Of w) (immI w)) ∧
  (∀ (rd rs1 : Reg) (imm : Word) (s : State),
    CompletesWith (.slti rd rs1 imm) s rd (if (s.readReg rs1).toInt < imm.toInt then 1#32 else 0#32) (s.pc + 4#32)) ∧
  decodeWord 0x0001A093#32 = .ok (.slti 1 3 0#32)

/-- R114: SLTIU's encoding and effect, and the rule's example. -/
def Obligations.SltiuComparesUnsigned : Prop :=
  DecodesRow 0x0000707F#32 0x00003013#32 (fun w => .sltiu (rdOf w) (rs1Of w) (immI w)) ∧
  (∀ (rd rs1 : Reg) (imm : Word) (s : State),
    CompletesWith (.sltiu rd rs1 imm) s rd (if (s.readReg rs1).toNat < imm.toNat then 1#32 else 0#32)
      (s.pc + 4#32)) ∧
  decodeWord 0xFFF1B093#32 = .ok (.sltiu 1 3 0xFFFFFFFF#32)

/-- R115: XORI's encoding and effect, and the rule's example. -/
def Obligations.XoriXorsItsImmediate : Prop :=
  DecodesRow 0x0000707F#32 0x00004013#32 (fun w => .xori (rdOf w) (rs1Of w) (immI w)) ∧
  (∀ (rd rs1 : Reg) (imm : Word) (s : State),
    CompletesWith (.xori rd rs1 imm) s rd (s.readReg rs1 ^^^ imm) (s.pc + 4#32)) ∧
  decodeWord 0xFFF1C093#32 = .ok (.xori 1 3 0xFFFFFFFF#32)

/-- 41_op_imm.md, SRLI, and 92_eei_decisions.md D10 (log entry 6): SRLI's encoding, bits 31 and 29 to 25 unchecked, and its effect. -/
def Obligations.SrliShiftsRightLogical : Prop :=
  DecodesRow 0x4000707F#32 0x00005013#32 (fun w => .srli (rdOf w) (rs1Of w) (shamtOf w)) ∧
  (∀ (rd rs1 : Reg) (n : Shamt) (s : State),
    CompletesWith (.srli rd rs1 n) s rd (s.readReg rs1 >>> n.val) (s.pc + 4#32))

/-- 41_op_imm.md, SRAI, and 92_eei_decisions.md D10 (log entry 6): SRAI's encoding, bits 31 and 29 to 25 unchecked, and its effect. -/
def Obligations.SraiShiftsRightArithmetic : Prop :=
  DecodesRow 0x4000707F#32 0x40005013#32 (fun w => .srai (rdOf w) (rs1Of w) (shamtOf w)) ∧
  (∀ (rd rs1 : Reg) (n : Shamt) (s : State),
    CompletesWith (.srai rd rs1 n) s rd ((s.readReg rs1).sshiftRight n.val) (s.pc + 4#32))

/-- R118: ORI's encoding and effect, and the rule's example. -/
def Obligations.OriOrsItsImmediate : Prop :=
  DecodesRow 0x0000707F#32 0x00006013#32 (fun w => .ori (rdOf w) (rs1Of w) (immI w)) ∧
  (∀ (rd rs1 : Reg) (imm : Word) (s : State),
    CompletesWith (.ori rd rs1 imm) s rd (s.readReg rs1 ||| imm) (s.pc + 4#32)) ∧
  decodeWord 0x8001E093#32 = .ok (.ori 1 3 0xFFFFF800#32)

/-- R119: ANDI's encoding and effect, and the rule's example. -/
def Obligations.AndiAndsItsImmediate : Prop :=
  DecodesRow 0x0000707F#32 0x00007013#32 (fun w => .andi (rdOf w) (rs1Of w) (immI w)) ∧
  (∀ (rd rs1 : Reg) (imm : Word) (s : State),
    CompletesWith (.andi rd rs1 imm) s rd (s.readReg rs1 &&& imm) (s.pc + 4#32)) ∧
  decodeWord 0x0FF1F093#32 = .ok (.andi 1 3 0xFF#32)

/-! ### The upper-immediate instructions and the jumps -/

/-- R131: LUI's encoding and effect, and the rule's example. -/
def Obligations.LuiLoadsItsImmediate : Prop :=
  DecodesRow 0x0000007F#32 0x00000037#32 (fun w => .lui (rdOf w) (immU w)) ∧
  (∀ (rd : Reg) (imm : Word) (s : State), CompletesWith (.lui rd imm) s rd imm (s.pc + 4#32)) ∧
  decodeWord 0x123450B7#32 = .ok (.lui 1 0x12345000#32)

/-- R132: AUIPC's encoding and effect, with the address of the AUIPC itself, and the rule's example. -/
def Obligations.AuipcAddsItsImmediateToThePc : Prop :=
  DecodesRow 0x0000007F#32 0x00000017#32 (fun w => .auipc (rdOf w) (immU w)) ∧
  (∀ (rd : Reg) (imm : Word) (s : State), CompletesWith (.auipc rd imm) s rd (s.pc + imm) (s.pc + 4#32)) ∧
  decodeWord 0x00001097#32 = .ok (.auipc 1 0x00001000#32)

/-- 43_control_transfer.md, JAL, and 92_eei_decisions.md D6 (log entry 7): JAL's encoding and effect, both additions modulo 2^32,
whatever the target. -/
def Obligations.JalLinksAndJumps : Prop :=
  DecodesRow 0x0000007F#32 0x0000006F#32 (fun w => .jal (rdOf w) (immJ w)) ∧
  (∀ (rd : Reg) (offset : Word) (s : State),
    CompletesWith (.jal rd offset) s rd (s.pc + 4#32) (s.pc + offset))

/-- 43_control_transfer.md, JALR, and 92_eei_decisions.md D12 (log entry 9): JALR's encoding and effect, the target from the old
`x[rs1]` also when `rd = rs1`, with bit 0 cleared and every other bit kept. -/
def Obligations.JalrLinksAndJumpsToRegister : Prop :=
  DecodesRow 0x0000707F#32 0x00000067#32 (fun w => .jalr (rdOf w) (rs1Of w) (immI w)) ∧
  (∀ (rd rs1 : Reg) (imm : Word) (s : State),
    CompletesWith (.jalr rd rs1 imm) s rd (s.pc + 4#32)
      (BitVec.ofNat 32 ((s.readReg rs1 + imm).toNat - (s.readReg rs1 + imm).toNat % 2)))

/-! ### All instructions -/

/-- 10_state.md sections 1 and 2, 20_memory.md section 4, 40_execute_writeback.md section 3: whatever the instruction, nothing changes
but `x[rd]` and the PC: not another register, not a byte of memory, not the configuration, not the run status. -/
def Obligations.EveryInstructionChangesOnlyDestinationAndPc : Prop :=
  ∀ (i : Instr) (s t : State), exec i s = .next t →
    (∀ r, r ≠ i.rd → t.readReg r = s.readReg r) ∧ (∀ a, t.readByte a = s.readByte a) ∧ t.mem = s.mem ∧
    t.config = s.config ∧ t.status = s.status ∧ t.readReg 0 = 0#32

/-- 10_state.md section 2 and 43_control_transfer.md: every instruction completes from every state, and one whose next PC is not
`pc + 4` is JAL or JALR. -/
def Obligations.EveryInstructionCompletesAndOnlyJumpsRedirect : Prop :=
  ∀ (i : Instr) (s : State), ∃ t, exec i s = .next t ∧ (t.pc ≠ s.pc + 4#32 → IsJump i)

/-- 30_encoding.md section 2 (hints and no-ops): an instruction with `rd = 0` writes no register, and ADDI x0, x0, 0 only advances
the PC. -/
def Obligations.ZeroDestinationDiscardsTheResult : Prop :=
  (∀ (i : Instr) (s : State), i.rd = 0 → ∃ t, exec i s = .next t ∧ t.regs = s.regs) ∧
  (∀ s : State, exec (.addi 0 0 0#32) s = .next (s.setPc (s.pc + 4#32)))

/-! ### The step and the faults -/

/-- 40_execute_writeback.md section 1 and 92_eei_decisions.md D14 (log entry 2): when the four bytes at the PC decode to an
instruction, a step of a running machine is that instruction's meaning at that state, and nothing is added around it. -/
def Obligations.StepRunsTheDecodedInstruction : Prop :=
  ∀ (s : State) (i : Instr), s.status = .running → s.config.valid = true → inRange s.config s.pc 4 = true →
    decodeBytes [Memory.byteAt s.mem s.pc.toNat, Memory.byteAt s.mem (s.pc.toNat + 1),
      Memory.byteAt s.mem (s.pc.toNat + 2), Memory.byteAt s.mem (s.pc.toNat + 3)] = .ok (i, []) →
    step s = exec i s

/-- The model's own interface (log entry 3): the word placed for the next step is the word that step decodes and runs, and
placing it changes no register, PC, status or configuration, nor any byte outside the four at the PC. -/
def Obligations.StepRunsThePlacedWord : Prop :=
  ∀ (s : State) (nbits w : Nat) (i : Instr), s.status = .running → s.config.valid = true →
    inRange s.config s.pc 4 = true → Memory.wf s.mem → decodeTableWord nbits w = some i →
    step (s.withFetchWord nbits w) = exec i (s.withFetchWord nbits w) ∧
    (s.withFetchWord nbits w).regs = s.regs ∧ (s.withFetchWord nbits w).pc = s.pc ∧
    (s.withFetchWord nbits w).status = s.status ∧ (s.withFetchWord nbits w).config = s.config ∧
    Memory.wf (s.withFetchWord nbits w).mem ∧
    ∀ a, a < s.pc.toNat ∨ s.pc.toNat + 4 ≤ a →
      Memory.byteAt (s.withFetchWord nbits w).mem a = Memory.byteAt s.mem a

/-- 60_exceptions.md sections 1 and 3 and 92_eei_decisions.md D8 and D9 (log entry 4): a fetch outside the window halts the run
with a MemoryFault that records the PC; no register, PC or memory byte changes. -/
def Obligations.FetchOutsideTheWindowHaltsWithMemoryFault : Prop :=
  ∀ s : State, s.status = .running → s.config.valid = true →
    (s.pc.toNat < s.config.memBase.toNat ∨ s.pc.toNat + 3 ≥ s.config.memBase.toNat + s.config.memSize) →
    ∃ t, step s = .next t ∧ t.status = .halted (.memoryFault s.pc) ∧ t.regs = s.regs ∧ t.pc = s.pc ∧
      t.mem = s.mem ∧ t.config = s.config

/-- 60_exceptions.md sections 1 and 3 and 92_eei_decisions.md D8 and D9 (log entry 4): a fetched ILLEGAL word halts the run with an
IllegalInstruction that records the word; no register, PC or memory byte changes. -/
def Obligations.FetchedIllegalWordHaltsWithIllegalInstruction : Prop :=
  ∀ (s : State) (w : Word), s.status = .running → s.config.valid = true → s.fetch = .ok w →
    classify w = .illegal →
    ∃ t, step s = .next t ∧ t.status = .halted (.illegalInstruction w) ∧ t.regs = s.regs ∧ t.pc = s.pc ∧
      t.mem = s.mem ∧ t.config = s.config

/-- 40_execute_writeback.md section 1 and 92_eei_decisions.md D8 (log entry 4): a halted state has no further step, so a run of one or
more steps from it ends with the recorded fault. -/
def Obligations.HaltedRunGoesNoFurther : Prop :=
  ∀ (s : State) (f : Fault), s.status = .halted f →
    step s = .fault f ∧ ∀ k, Host.Core.run Sys2Proof.core (k + 1) s = .fault f

/-- 60_exceptions.md sections 2, 3 and 5 and 92_eei_decisions.md D9 (log entry 4): what the driver receives from each step, by
cases that exclude each other; the fetch's MemoryFault comes before any IllegalInstruction, and an in-scope instruction
raises nothing. -/
def Obligations.DriverReceivesOneResultPerStep : Prop :=
  ∀ s : State, s.config.valid = true →
    (s.status = .running → inRange s.config s.pc 4 = false →
      driverResult (step s) = some (.error (.memoryFault s.pc))) ∧
    (s.status = .running → ∀ w, s.fetch = .ok w → classify w = .illegal →
      driverResult (step s) = some (.error (.illegalInstruction w))) ∧
    (s.status = .running → ∀ w, s.fetch = .ok w → classify w ≠ .illegal → driverResult (step s) = some (.ok ())) ∧
    (∀ f, s.status = .halted f → driverResult (step s) = none)

/-- 40_execute_writeback.md section 3, 60_exceptions.md section 3 and 92_eei_decisions.md D8 (log entry 4): commit is all or nothing.
A step that answers a next state either commits one instruction and leaves the status running, or changes the status alone,
to a fault the state explains. -/
def Obligations.StepCommitsAllOrNothing : Prop :=
  ∀ s t : State, step s = .next t →
    (t.status = .running ∧ ∃ w i, s.fetch = .ok w ∧ decodeWord w = .ok i ∧ exec i s = .next t) ∨
    (∃ f, t = s.raise f ∧ HaltExplained s f)

/-- 00_scope.md section 3 and 92_eei_decisions.md D4 (log entry 1): a configuration that fails the constraints has no run, neither at
boot nor at a step, and an image longer than the window is not loaded; otherwise boot succeeds. -/
def Obligations.BootAcceptsExactlyValidLaunches : Prop :=
  (∀ c : Config, c.valid = true ↔ c.memBase.toNat % 4 = 0 ∧ c.memBase.toNat + c.memSize ≤ 4294967296) ∧
  (∀ (c : Config) (image : List Byte), c.valid = false → boot c image = .error .badConfiguration) ∧
  (∀ (c : Config) (image : List Byte), c.valid = true → c.memSize < image.length →
    boot c image = .error .imageTooLong) ∧
  (∀ (c : Config) (image : List Byte), c.valid = true → image.length ≤ c.memSize → ∃ s, boot c image = .ok s) ∧
  (∀ s : State, s.status = .running → s.config.valid = false → step s = .refused .badConfiguration)

/-! ### Reset and boot -/

/-- R36: the PC at reset is the base address of memory, in every configuration and for every image. -/
def Obligations.ResetPcIsMemBase : Prop :=
  State.reset.pc = 0x80000000#32 ∧
  (∀ (c : Config) (m : Memory), (State.initial c m).pc = c.memBase) ∧
  (∀ (c : Config) (image : List Byte) (s : State), boot c image = .ok s → s.pc = c.memBase)

/-- 10_state.md section 5, 70_reset_and_hazards.md section 1, and 92_eei_decisions.md D2 and D9 (log entries 8 and 4): what reset
leaves in every register and in the status. That State.reset has the reference configuration is the model's choice (log
entry 1), and that its memory lists nothing is the model's choice under 92_eei_decisions.md D3 (log entry 3). -/
def Obligations.ResetLeavesStackPointerAndZeroes : Prop :=
  (∀ (c : Config) (m : Memory),
    (State.initial c m).readReg 2 = BitVec.ofNat 32 (c.memBase.toNat + c.memSize) ∧
    (∀ r : Reg, r ≠ 2 → (State.initial c m).readReg r = 0#32) ∧
    (State.initial c m).status = .running) ∧
  State.reset.readReg 2 = 0x80100000#32 ∧
  State.reset.config.memBase = 0x80000000#32 ∧ State.reset.config.memSize = 0x00100000 ∧ State.reset.mem = []

/-- 10_state.md section 5 and 92_eei_decisions.md D3 (log entry 3): the image lies in the window from its base upwards, in the order of
the blob, and every other byte of the window is 0x00. -/
def Obligations.BootPlacesTheImageVerbatim : Prop :=
  ∀ (c : Config) (image : List Byte) (s : State), boot c image = .ok s →
    ∀ j, j < c.memSize →
      s.readByte (BitVec.ofNat 32 (c.memBase.toNat + j)) = .ok (image.getD j 0x00#8)

/-! ### Invariants -/

/-- The model's invariant at reset (20_memory.md section 1, 10_state.md sections 2 and 5). -/
def Obligations.ResetMeetsTheInvariant : Prop := State.reset.Inv

/-- The model's invariant in the state after any accepted boot (10_state.md section 5). -/
def Obligations.BootMeetsTheInvariant : Prop :=
  ∀ (c : Config) (image : List Byte) (s : State), boot c image = .ok s → s.Inv

/-- 10_state.md sections 1 to 4 and 20_memory.md sections 1 and 4: every step keeps the invariant: the configuration stays valid, the
storage behind x0 holds 0, the PC is even, memory keeps its canonical form inside the window, and a halt is explained by the
state it happened in. -/
def Obligations.EveryStepKeepsTheInvariant : Prop :=
  ∀ s t : State, s.Inv → step s = .next t → t.Inv

/-- 10_state.md section 2 and 60_exceptions.md: every state of every run from every accepted boot meets the invariant; so its PC is
never odd, and a halted run is halted by a PC outside the window or by an ILLEGAL word at the PC. -/
def Obligations.ReachableStatesMeetTheInvariant : Prop :=
  ∀ (c : Config) (image : List Byte) (k : Nat) (t : State), ReachedBy c image k t →
    t.Inv ∧ t.config = c

/-- 10_state.md section 2, the restated alignment invariant (90_conflicts.md C2, log entry 14): from a PC that is a multiple of 4, a step
whose jump target, if any, is a multiple of 4 leaves a PC that is a multiple of 4. -/
def Obligations.AlignedTargetsKeepThePcAligned : Prop :=
  ∀ s t : State, s.pc.toNat % 4 = 0 →
    (∀ w i, s.fetch = .ok w → decodeWord w = .ok i → AlignedTarget i s) →
    step s = .next t → t.pc.toNat % 4 = 0

/-- 43_control_transfer.md, 20_memory.md section 2 and 92_eei_decisions.md D7 (log entry 14), with the wrap of D6 (log entry 7): JAL and
JALR to a target that is 2 modulo 4 complete with the PC at that target, and, where the four bytes there are in the window,
the next step fetches and executes them, with no alignment fault. -/
def Obligations.UnalignedTargetIsFetchedWithoutFault : Prop :=
  (∀ (rd : Reg) (offset : Word) (s : State), (s.pc + offset).toNat % 4 = 2 →
    ∃ t, exec (.jal rd offset) s = .next t ∧ Commits s t rd (s.pc + 4#32) (s.pc + offset) ∧
      (inRange s.config (s.pc + offset) 4 = true → FetchesBytesAtPc t)) ∧
  (∀ (rd rs1 : Reg) (imm : Word) (s : State), ((s.readReg rs1 + imm) &&& 0xFFFFFFFE#32).toNat % 4 = 2 →
    ∃ t, exec (.jalr rd rs1 imm) s = .next t ∧
      Commits s t rd (s.pc + 4#32) ((s.readReg rs1 + imm) &&& 0xFFFFFFFE#32) ∧
      (inRange s.config ((s.readReg rs1 + imm) &&& 0xFFFFFFFE#32) 4 = true → FetchesBytesAtPc t))

/-! ### Pseudo-instructions -/

/-- 30_encoding.md section 4 (general knowledge, log entry 13): the expansion of `li rd, imm` loads exactly `imm`, for every
value, and writes no other register. -/
def Obligations.LoadImmediateExpansionLoadsTheValue : Prop :=
  ∀ (rd : Reg) (imm : Word) (s : State),
    (∀ i ∈ (Pseudo.li rd imm).expand, i.wellFormed = true) ∧
    ∃ t, execAll (Pseudo.li rd imm).expand s = .next t ∧
      t.readReg rd = (if rd = 0 then 0#32 else imm) ∧ (∀ r, r ≠ rd → t.readReg r = s.readReg r) ∧
      t.pc = s.pc + BitVec.ofNat 32 (4 * (Pseudo.li rd imm).expand.length) ∧ t.mem = s.mem

/-- 30_encoding.md section 4 (general knowledge, log entry 13): the two instructions of `la rd, offset` are well formed and, for
every offset and PC, put the address into `rd` (nothing where `rd = 0`) and go on after them. From an even PC and with an even
offset, `call offset` reaches the call's pc plus the offset and links the address after its two instructions, and
`tail offset` reaches the same target and writes only x6. Nothing else changes in any of them. -/
def Obligations.CallTailAndAddressExpansionsReachTheOffset : Prop :=
  (∀ (rd : Reg) (offset : Word) (s : State),
    (∀ i ∈ (Pseudo.la rd offset).expand, i.wellFormed = true) ∧
    ∃ t, execAll (Pseudo.la rd offset).expand s = .next t ∧ Commits s t rd (s.pc + offset) (s.pc + 8#32)) ∧
  (∀ (offset : Word) (s : State),
    (∀ i ∈ (Pseudo.call offset).expand ++ (Pseudo.tail offset).expand, i.wellFormed = true) ∧
    (offset.toNat % 2 = 0 → s.pc.toNat % 2 = 0 →
      (∃ t, execAll (Pseudo.call offset).expand s = .next t ∧ Commits s t 1 (s.pc + 8#32) (s.pc + offset)) ∧
      (∃ t v, execAll (Pseudo.tail offset).expand s = .next t ∧ Commits s t 6 v (s.pc + offset))))

/-- 30_encoding.md section 4 (general knowledge, log entry 13): what the one-instruction expansions do: a move copies, `not`
complements, `seqz` tests for zero, `nop` only advances the PC, and `jr` jumps to the register with bit 0 cleared and writes
no register. -/
def Obligations.SingleInstructionExpansionsDoWhatTheyName : Prop :=
  ∀ (rd rs : Reg) (s : State),
    (∃ t, execAll (Pseudo.mv rd rs).expand s = .next t ∧ Commits s t rd (s.readReg rs) (s.pc + 4#32)) ∧
    (∃ t, execAll (Pseudo.not rd rs).expand s = .next t ∧ Commits s t rd (~~~(s.readReg rs)) (s.pc + 4#32)) ∧
    (∃ t, execAll (Pseudo.seqz rd rs).expand s = .next t ∧
      Commits s t rd (if s.readReg rs = 0#32 then 1#32 else 0#32) (s.pc + 4#32)) ∧
    execAll Pseudo.nop.expand s = .next (s.setPc (s.pc + 4#32)) ∧
    execAll (Pseudo.jr rs).expand s = .next (s.setPc (s.readReg rs &&& 0xFFFFFFFE#32)) ∧
    execAll Pseudo.ret.expand s = .next (s.setPc (s.readReg 1 &&& 0xFFFFFFFE#32))

/-! ### Memory over a step -/

/-- R49: a step writes no memory, whatever it does: from every state, whether or not a run reaches it, a step that answers a
next state leaves memory as it was, byte for byte. It leaves the configuration too (00_scope.md section 3). -/
def Obligations.EveryStepLeavesMemoryAndConfiguration : Prop :=
  ∀ s t : State, step s = .next t →
    t.mem = s.mem ∧ t.config = s.config ∧ ∀ a : Word, t.readByte a = s.readByte a
end

