-- ==== Sys2Proof/Laws/Encoding.lean ====
section
/-! SUPPORT. The bits of the decoder's fields and of the encoder's layouts (30_encoding.md R61 to R68, R77). -/

namespace Sys2Proof

/-! ### The bits of the layouts -/

theorem getLsbD_encI (v inst : Word) {k : Nat} (hk : k < 32) :
    (encI v inst).getLsbD k = if k < 20 then inst.getLsbD k else v.getLsbD (k - 20) := by
  refine (BitVec.getLsbD_append (x := v.extractLsb' 0 12) (y := inst.extractLsb' 0 20) (i := k)).trans ?_
  by_cases h : k < 20
  · simp [h]
  · have h2 : k - 20 < 12 := by omega
    simp [h, h2]

theorem getLsbD_encU (v inst : Word) {k : Nat} (hk : k < 32) :
    (encU v inst).getLsbD k = if k < 12 then inst.getLsbD k else v.getLsbD k := by
  refine (BitVec.getLsbD_append (x := v.extractLsb' 12 20) (y := inst.extractLsb' 0 12) (i := k)).trans ?_
  by_cases h : k < 12
  · simp [h]
  · have h2 : k - 12 < 20 := by omega
    have h3 : 12 + (k - 12) = k := by omega
    simp [h, h2, h3]

theorem getLsbD_encJ (v inst : Word) {k : Nat} (hk : k < 32) :
    (encJ v inst).getLsbD k =
      if k < 12 then inst.getLsbD k
      else if k < 20 then v.getLsbD k
      else if k = 20 then v.getLsbD 11
      else if k < 31 then v.getLsbD (k - 20)
      else v.getLsbD 20 := by
  refine (BitVec.getLsbD_append (x := v.extractLsb' 20 1 ++ v.extractLsb' 1 10 ++ v.extractLsb' 11 1 ++
    v.extractLsb' 12 8) (y := inst.extractLsb' 0 12) (i := k)).trans ?_
  by_cases h1 : k < 12
  · simp [h1]
  by_cases h2 : k < 20
  · have e1 : k - 12 < 8 := by omega
    have e2 : 12 + (k - 12) = k := by omega
    simp only [BitVec.getLsbD_append, BitVec.getLsbD_extractLsb', h1, h2, e1, e2, if_true, if_false, decide_true, Bool.true_and]
  by_cases h3 : k = 20
  · subst h3
    simp only [BitVec.getLsbD_append, BitVec.getLsbD_extractLsb']
    rfl
  by_cases h4 : k < 31
  · have e1 : ¬ k - 12 < 8 := by omega
    have e2 : ¬ k - 12 - 8 < 1 := by omega
    have e3 : k - 12 - 8 - 1 < 10 := by omega
    have e4 : 1 + (k - 12 - 8 - 1) = k - 20 := by omega
    simp only [BitVec.getLsbD_append, BitVec.getLsbD_extractLsb', h1, h2, h3, h4, e1, e2, e3, e4, if_true, if_false,
      decide_true, Bool.true_and]
  · obtain rfl : k = 31 := by omega
    simp only [BitVec.getLsbD_append, BitVec.getLsbD_extractLsb']
    rfl

theorem getLsbD_encShift (a : Bool) (n : Shamt) (inst : Word) {k : Nat} (hk : k < 32) :
    (encShift a n inst).getLsbD k =
      if k < 20 then inst.getLsbD k
      else if k < 25 then n.val.testBit (k - 20)
      else if k = 30 then a
      else false := by
  refine (BitVec.getLsbD_append (x := 0#1 ++ BitVec.ofBool a ++ 0#5 ++ BitVec.ofNat 5 n.val)
    (y := inst.extractLsb' 0 20) (i := k)).trans ?_
  by_cases h1 : k < 20
  · simp [h1]
  by_cases h2 : k < 25
  · have e1 : k - 20 < 5 := by omega
    simp only [BitVec.getLsbD_append, BitVec.getLsbD_ofNat, h1, h2, e1, if_true, if_false, decide_true, Bool.true_and]
  have e1 : ¬ k - 20 < 5 := by omega
  by_cases h3 : k = 30
  · subst h3
    simp only [BitVec.getLsbD_append, BitVec.getLsbD_ofBool]
    simp
  by_cases h4 : k = 31
  · subst h4
    simp only [BitVec.getLsbD_append, BitVec.getLsbD_zero]
    rfl
  have e2 : k - 20 - 5 < 5 := by omega
  simp only [BitVec.getLsbD_append, BitVec.getLsbD_zero, h1, h2, h3, e1, e2, if_true, if_false]

theorem getLsbD_layoutI (op : BitVec 7) (f : BitVec 3) (rd rs1 : Reg) {k : Nat} (hk : k < 20) :
    (layoutI op f rd rs1).getLsbD k =
      if k < 7 then op.getLsbD k
      else if k < 12 then rd.val.testBit (k - 7)
      else if k < 15 then f.getLsbD (k - 12)
      else rs1.val.testBit (k - 15) := by
  refine (BitVec.getLsbD_append (x := 0#12 ++ BitVec.ofNat 5 rs1.val ++ f ++ BitVec.ofNat 5 rd.val)
    (y := op) (i := k)).trans ?_
  by_cases h1 : k < 7
  · simp [h1]
  by_cases h2 : k < 12
  · have e1 : k - 7 < 5 := by omega
    simp only [BitVec.getLsbD_append, BitVec.getLsbD_ofNat, h1, h2, e1, if_true, if_false, decide_true, Bool.true_and]
  have e1 : ¬ k - 7 < 5 := by omega
  by_cases h3 : k < 15
  · have e3 : k - 7 - 5 = k - 12 := by omega
    simp only [BitVec.getLsbD_append, h1, h2, h3, e1, e3, if_true, if_false, show k - 12 < 3 by omega]
  · have e2 : ¬ k - 7 - 5 < 3 := by omega
    have e3 : k - 7 - 5 - 3 = k - 15 := by omega
    simp only [BitVec.getLsbD_append, BitVec.getLsbD_ofNat, h1, h2, h3, e1, e2, e3, if_true, if_false,
      show k - 15 < 5 by omega, decide_true, Bool.true_and]

theorem getLsbD_layoutU (op : BitVec 7) (rd : Reg) {k : Nat} (hk : k < 12) :
    (layoutU op rd).getLsbD k = if k < 7 then op.getLsbD k else rd.val.testBit (k - 7) := by
  refine (BitVec.getLsbD_append (x := 0#20 ++ BitVec.ofNat 5 rd.val) (y := op) (i := k)).trans ?_
  by_cases h1 : k < 7
  · simp [h1]
  have e1 : k - 7 < 5 := by omega
  simp only [BitVec.getLsbD_append, BitVec.getLsbD_ofNat, h1, e1, if_true, if_false, decide_true, Bool.true_and]

theorem getLsbD_immI (w : Word) {k : Nat} (hk : k < 32) :
    (immI w).getLsbD k = if k < 12 then w.getLsbD (20 + k) else w.getLsbD 31 := by
  unfold immI sext
  rw [BitVec.getLsbD_signExtend, BitVec.msb_eq_getLsbD_last]
  by_cases h : k < 12 <;>
    simp only [BitVec.getLsbD_extractLsb', hk, h, decide_true, Bool.true_and, if_true, if_false, Nat.reduceSub, Nat.reduceLT,
      Nat.reduceAdd]

theorem getLsbD_immU (w : Word) {k : Nat} (hk : k < 32) :
    (immU w).getLsbD k = if k < 12 then false else w.getLsbD k := by
  refine (BitVec.getLsbD_append (x := w.extractLsb' 12 20) (y := 0#12) (i := k)).trans ?_
  by_cases h : k < 12
  · simp [h]
  · have h2 : k - 12 < 20 := by omega
    have h3 : 12 + (k - 12) = k := by omega
    simp [h, h2, h3]

/-- The 21-bit offset of the J format before its sign extension (rule R65). -/
theorem getLsbD_offset21 (w : Word) {k : Nat} (hk : k < 21) :
    (w.extractLsb' 31 1 ++ w.extractLsb' 12 8 ++ w.extractLsb' 20 1 ++ w.extractLsb' 21 10 ++ 0#1).getLsbD k =
      if k = 0 then false
      else if k < 11 then w.getLsbD (k + 20)
      else if k = 11 then w.getLsbD 20
      else if k < 20 then w.getLsbD k
      else w.getLsbD 31 := by
  by_cases h0 : k = 0
  · subst h0
    simp only [BitVec.getLsbD_append, BitVec.getLsbD_zero]
    rfl
  have e0 : ¬ k < 1 := by omega
  by_cases h1 : k < 11
  · have e1 : k - 1 < 10 := by omega
    have e2 : 21 + (k - 1) = k + 20 := by omega
    simp only [BitVec.getLsbD_append, BitVec.getLsbD_extractLsb', h0, h1, e0, e1, e2, if_true, if_false, decide_true,
      Bool.true_and]
  by_cases h2 : k = 11
  · subst h2
    simp only [BitVec.getLsbD_append, BitVec.getLsbD_extractLsb']
    rfl
  by_cases h3 : k < 20
  · have e1 : ¬ k - 1 < 10 := by omega
    have e2 : ¬ k - 1 - 10 < 1 := by omega
    have e3 : k - 1 - 10 - 1 < 8 := by omega
    have e4 : 12 + (k - 1 - 10 - 1) = k := by omega
    simp only [BitVec.getLsbD_append, BitVec.getLsbD_extractLsb', h0, h1, h2, h3, e0, e1, e2, e3, e4, if_true, if_false,
      decide_true, Bool.true_and]
  · obtain rfl : k = 20 := by omega
    simp only [BitVec.getLsbD_append, BitVec.getLsbD_extractLsb']
    rfl

theorem getLsbD_immJ (w : Word) {k : Nat} (hk : k < 32) :
    (immJ w).getLsbD k =
      if k = 0 then false
      else if k < 11 then w.getLsbD (k + 20)
      else if k = 11 then w.getLsbD 20
      else if k < 20 then w.getLsbD k
      else w.getLsbD 31 := by
  unfold immJ sext
  rw [BitVec.getLsbD_signExtend]
  by_cases h : k < 21
  · rw [if_pos h, getLsbD_offset21 w h]
    simp [hk]
  · have e : (w.extractLsb' 31 1 ++ w.extractLsb' 12 8 ++ w.extractLsb' 20 1 ++ w.extractLsb' 21 10 ++ 0#1).msb =
        w.getLsbD 31 := by
      rw [BitVec.msb_eq_getLsbD_last]
      exact (getLsbD_offset21 w (k := 20) (by decide)).trans (by simp)
    rw [if_neg h, e]
    simp [hk, show ¬ k = 0 by omega, show ¬ k < 11 by omega, show ¬ k = 11 by omega, show ¬ k < 20 by omega]

/-! ### What the encoders leave alone -/

theorem low_encI (v inst : Word) {lo len : Nat} (h : lo + len ≤ 20) :
    (encI v inst).extractLsb' lo len = inst.extractLsb' lo len := by
  apply BitVec.eq_of_getLsbD_eq
  intro k hk
  simp [getLsbD_encI v inst (k := lo + k) (by omega), hk, show lo + k < 20 by omega]

theorem low_encShift (a : Bool) (n : Shamt) (inst : Word) {lo len : Nat} (h : lo + len ≤ 20) :
    (encShift a n inst).extractLsb' lo len = inst.extractLsb' lo len := by
  apply BitVec.eq_of_getLsbD_eq
  intro k hk
  simp [getLsbD_encShift a n inst (k := lo + k) (by omega), hk, show lo + k < 20 by omega]

theorem low_encU (v inst : Word) {lo len : Nat} (h : lo + len ≤ 12) :
    (encU v inst).extractLsb' lo len = inst.extractLsb' lo len := by
  apply BitVec.eq_of_getLsbD_eq
  intro k hk
  simp [getLsbD_encU v inst (k := lo + k) (by omega), hk, show lo + k < 12 by omega]

theorem low_encJ (v inst : Word) {lo len : Nat} (h : lo + len ≤ 12) :
    (encJ v inst).extractLsb' lo len = inst.extractLsb' lo len := by
  apply BitVec.eq_of_getLsbD_eq
  intro k hk
  simp [getLsbD_encJ v inst (k := lo + k) (by omega), hk, show lo + k < 12 by omega]

/-! ### The fields of the layouts -/

theorem opcode_layoutI (op : BitVec 7) (f : BitVec 3) (rd rs1 : Reg) : (layoutI op f rd rs1).extractLsb' 0 7 = op := by
  apply BitVec.eq_of_getLsbD_eq
  intro k hk
  rw [BitVec.getLsbD_extractLsb', getLsbD_layoutI _ _ _ _ (by omega)]
  simp [hk]

theorem rd_layoutI (op : BitVec 7) (f : BitVec 3) (rd rs1 : Reg) :
    (layoutI op f rd rs1).extractLsb' 7 5 = BitVec.ofNat 5 rd.val := by
  apply BitVec.eq_of_getLsbD_eq
  intro k hk
  rw [BitVec.getLsbD_extractLsb', getLsbD_layoutI _ _ _ _ (by omega), if_neg (by omega), if_pos (by omega)]
  simp only [BitVec.getLsbD_ofNat, hk, decide_true, Bool.true_and]
  congr 1
  omega

theorem funct3_layoutI (op : BitVec 7) (f : BitVec 3) (rd rs1 : Reg) : (layoutI op f rd rs1).extractLsb' 12 3 = f := by
  apply BitVec.eq_of_getLsbD_eq
  intro k hk
  rw [BitVec.getLsbD_extractLsb', getLsbD_layoutI _ _ _ _ (by omega), if_neg (by omega), if_neg (by omega),
    if_pos (by omega)]
  simp only [hk, decide_true, Bool.true_and]
  congr 1
  omega

theorem rs1_layoutI (op : BitVec 7) (f : BitVec 3) (rd rs1 : Reg) :
    (layoutI op f rd rs1).extractLsb' 15 5 = BitVec.ofNat 5 rs1.val := by
  apply BitVec.eq_of_getLsbD_eq
  intro k hk
  rw [BitVec.getLsbD_extractLsb', getLsbD_layoutI _ _ _ _ (by omega), if_neg (by omega), if_neg (by omega),
    if_neg (by omega)]
  simp only [BitVec.getLsbD_ofNat, hk, decide_true, Bool.true_and]
  congr 1
  omega

theorem opcode_layoutU (op : BitVec 7) (rd : Reg) : (layoutU op rd).extractLsb' 0 7 = op := by
  apply BitVec.eq_of_getLsbD_eq
  intro k hk
  rw [BitVec.getLsbD_extractLsb', getLsbD_layoutU _ _ (by omega)]
  simp [hk]

theorem rd_layoutU (op : BitVec 7) (rd : Reg) : (layoutU op rd).extractLsb' 7 5 = BitVec.ofNat 5 rd.val := by
  apply BitVec.eq_of_getLsbD_eq
  intro k hk
  rw [BitVec.getLsbD_extractLsb', getLsbD_layoutU _ _ (by omega), if_neg (by omega)]
  simp only [BitVec.getLsbD_ofNat, hk, decide_true, Bool.true_and]
  congr 1
  omega

@[simp] theorem toFin_ofNat_reg (r : Reg) : (BitVec.ofNat 5 r.val).toFin = r := by
  apply Fin.ext
  simp

/-! ### The fields of an encoded word -/

@[simp] theorem opcodeOf_encI (v : Word) (op : BitVec 7) (f : BitVec 3) (rd rs1 : Reg) :
    opcodeOf (encI v (layoutI op f rd rs1)) = op := by
  rw [opcodeOf, low_encI _ _ (by decide), opcode_layoutI]
@[simp] theorem rdOf_encI (v : Word) (op : BitVec 7) (f : BitVec 3) (rd rs1 : Reg) :
    rdOf (encI v (layoutI op f rd rs1)) = rd := by
  rw [rdOf, low_encI _ _ (by decide), rd_layoutI]; exact toFin_ofNat_reg rd
@[simp] theorem funct3Of_encI (v : Word) (op : BitVec 7) (f : BitVec 3) (rd rs1 : Reg) :
    funct3Of (encI v (layoutI op f rd rs1)) = f.toFin := by
  rw [funct3Of, low_encI _ _ (by decide), funct3_layoutI]
@[simp] theorem rs1Of_encI (v : Word) (op : BitVec 7) (f : BitVec 3) (rd rs1 : Reg) :
    rs1Of (encI v (layoutI op f rd rs1)) = rs1 := by
  rw [rs1Of, low_encI _ _ (by decide), rs1_layoutI]; exact toFin_ofNat_reg rs1

@[simp] theorem opcodeOf_encShift (a : Bool) (n : Shamt) (op : BitVec 7) (f : BitVec 3) (rd rs1 : Reg) :
    opcodeOf (encShift a n (layoutI op f rd rs1)) = op := by
  rw [opcodeOf, low_encShift _ _ _ (by decide), opcode_layoutI]
@[simp] theorem rdOf_encShift (a : Bool) (n : Shamt) (op : BitVec 7) (f : BitVec 3) (rd rs1 : Reg) :
    rdOf (encShift a n (layoutI op f rd rs1)) = rd := by
  rw [rdOf, low_encShift _ _ _ (by decide), rd_layoutI]; exact toFin_ofNat_reg rd
@[simp] theorem funct3Of_encShift (a : Bool) (n : Shamt) (op : BitVec 7) (f : BitVec 3) (rd rs1 : Reg) :
    funct3Of (encShift a n (layoutI op f rd rs1)) = f.toFin := by
  rw [funct3Of, low_encShift _ _ _ (by decide), funct3_layoutI]
@[simp] theorem rs1Of_encShift (a : Bool) (n : Shamt) (op : BitVec 7) (f : BitVec 3) (rd rs1 : Reg) :
    rs1Of (encShift a n (layoutI op f rd rs1)) = rs1 := by
  rw [rs1Of, low_encShift _ _ _ (by decide), rs1_layoutI]; exact toFin_ofNat_reg rs1

@[simp] theorem arithOf_encShift (a : Bool) (n : Shamt) (inst : Word) : arithOf (encShift a n inst) = a := by
  rw [arithOf, getLsbD_encShift _ _ _ (by decide)]
  simp

@[simp] theorem opcodeOf_encU (v : Word) (op : BitVec 7) (rd : Reg) : opcodeOf (encU v (layoutU op rd)) = op := by
  rw [opcodeOf, low_encU _ _ (by decide), opcode_layoutU]
@[simp] theorem rdOf_encU (v : Word) (op : BitVec 7) (rd : Reg) : rdOf (encU v (layoutU op rd)) = rd := by
  rw [rdOf, low_encU _ _ (by decide), rd_layoutU]; exact toFin_ofNat_reg rd
@[simp] theorem opcodeOf_encJ (v : Word) (op : BitVec 7) (rd : Reg) : opcodeOf (encJ v (layoutU op rd)) = op := by
  rw [opcodeOf, low_encJ _ _ (by decide), opcode_layoutU]
@[simp] theorem rdOf_encJ (v : Word) (op : BitVec 7) (rd : Reg) : rdOf (encJ v (layoutU op rd)) = rd := by
  rw [rdOf, low_encJ _ _ (by decide), rd_layoutU]; exact toFin_ofNat_reg rd

end Sys2Proof
end

