-- ==== Sys2Proof/Laws/State.lean ====
section
/-! SUPPORT. One lemma per field of State and per update of it, so that no later proof unfolds a record update. -/

namespace Sys2Proof.Machine

/-! ### The PC write -/

@[simp] theorem setPc_config (s : State) (t : Word) : (s.setPc t).config = s.config := rfl
@[simp] theorem setPc_regs (s : State) (t : Word) : (s.setPc t).regs = s.regs := rfl
@[simp] theorem setPc_pc (s : State) (t : Word) : (s.setPc t).pc = t := rfl
@[simp] theorem setPc_mem (s : State) (t : Word) : (s.setPc t).mem = s.mem := rfl
@[simp] theorem setPc_status (s : State) (t : Word) : (s.setPc t).status = s.status := rfl
@[simp] theorem setPc_readReg (s : State) (t : Word) (r : Reg) : (s.setPc t).readReg r = s.readReg r := rfl

/-! ### The register write -/

@[simp] theorem writeReg_config (s : State) (r : Reg) (v : Word) : (s.writeReg r v).config = s.config := by
  unfold State.writeReg; split <;> rfl
@[simp] theorem writeReg_pc (s : State) (r : Reg) (v : Word) : (s.writeReg r v).pc = s.pc := by
  unfold State.writeReg; split <;> rfl
@[simp] theorem writeReg_mem (s : State) (r : Reg) (v : Word) : (s.writeReg r v).mem = s.mem := by
  unfold State.writeReg; split <;> rfl
@[simp] theorem writeReg_status (s : State) (r : Reg) (v : Word) : (s.writeReg r v).status = s.status := by
  unfold State.writeReg; split <;> rfl

/-! ### The commit -/

@[simp] theorem commit_config (s : State) (r : Reg) (v p : Word) : (s.commit r v p).config = s.config := by
  simp [State.commit]
@[simp] theorem commit_pc (s : State) (r : Reg) (v p : Word) : (s.commit r v p).pc = p := rfl
@[simp] theorem commit_mem (s : State) (r : Reg) (v p : Word) : (s.commit r v p).mem = s.mem := by
  simp [State.commit]
@[simp] theorem commit_status (s : State) (r : Reg) (v p : Word) : (s.commit r v p).status = s.status := by
  simp [State.commit]

/-! ### Raising a fault -/

@[simp] theorem raise_config (s : State) (f : Fault) : (s.raise f).config = s.config := rfl
@[simp] theorem raise_regs (s : State) (f : Fault) : (s.raise f).regs = s.regs := rfl
@[simp] theorem raise_pc (s : State) (f : Fault) : (s.raise f).pc = s.pc := rfl
@[simp] theorem raise_mem (s : State) (f : Fault) : (s.raise f).mem = s.mem := rfl
@[simp] theorem raise_status (s : State) (f : Fault) : (s.raise f).status = .halted f := rfl
@[simp] theorem raise_readReg (s : State) (f : Fault) (r : Reg) : (s.raise f).readReg r = s.readReg r := rfl
@[simp] theorem raise_readByte (s : State) (f : Fault) (a : Word) : (s.raise f).readByte a = s.readByte a := rfl
@[simp] theorem raise_fetch (s : State) (f : Fault) : (s.raise f).fetch = s.fetch := rfl

/-! ### Placing a word at the PC -/

@[simp] theorem placeAtPc_config (s : State) (w : Word) : (s.placeAtPc w).config = s.config := by
  unfold State.placeAtPc; split <;> rfl
@[simp] theorem placeAtPc_regs (s : State) (w : Word) : (s.placeAtPc w).regs = s.regs := by
  unfold State.placeAtPc; split <;> rfl
@[simp] theorem placeAtPc_pc (s : State) (w : Word) : (s.placeAtPc w).pc = s.pc := by
  unfold State.placeAtPc; split <;> rfl
@[simp] theorem placeAtPc_status (s : State) (w : Word) : (s.placeAtPc w).status = s.status := by
  unfold State.placeAtPc; split <;> rfl
theorem placeAtPc_mem (s : State) (w : Word) (h : inRange s.config s.pc 4 = true) :
    (s.placeAtPc w).mem = Memory.setBytes s.mem s.pc.toNat (wordBytes w) := by
  simp [State.placeAtPc, h]

/-! ### The state after reset -/

@[simp] theorem initial_config (c : Config) (m : Memory) : (State.initial c m).config = c := rfl
@[simp] theorem initial_regs (c : Config) (m : Memory) : (State.initial c m).regs = initRegs c := rfl
@[simp] theorem initial_pc (c : Config) (m : Memory) : (State.initial c m).pc = resetVector c := rfl
@[simp] theorem initial_mem (c : Config) (m : Memory) : (State.initial c m).mem = m := rfl
@[simp] theorem initial_status (c : Config) (m : Memory) : (State.initial c m).status = .running := rfl

end Sys2Proof.Machine
end

