-- ==== Sys2Proof/Laws/Memory.lean ====
section
/-! SUPPORT. The laws of memory: read after write, the canonical form, and the window (20_memory.md R41 to R47). -/

namespace Sys2Proof.Machine

/-! ### One byte -/

theorem byteAt_of_all_gt {m : Memory} {a : Nat} (h : ∀ p ∈ m, a < p.1) : Memory.byteAt m a = memFill := by
  induction m with
  | nil => rfl
  | cons p rest ih =>
    have hp : a < p.1 := h p (by simp)
    rw [Memory.byteAt, if_neg (by omega)]
    exact ih fun q hq => h q (by simp [hq])

/-- In a canonical memory, a byte that is set is read back and every other byte is as before. -/
theorem byteAt_setByte {m : Memory} (hm : m.Pairwise (fun p q => p.1 < q.1)) (a : Nat) (b : Byte) (k : Nat) :
    Memory.byteAt (Memory.setByte m a b) k = if k = a then b else Memory.byteAt m k := by
  induction m with
  | nil =>
    by_cases hb : b = memFill <;> by_cases hk : k = a <;>
      simp [Memory.setByte, Memory.byteAt, hb, hk, eq_comm (a := a)]
  | cons p rest ih =>
    obtain ⟨c, v⟩ := p
    obtain ⟨hlt, hrest⟩ := List.pairwise_cons.mp hm
    rw [Memory.setByte]
    by_cases h1 : a < c
    · have hfill : k = a → Memory.byteAt ((c, v) :: rest) k = memFill := by
        rintro rfl
        apply byteAt_of_all_gt
        intro q hq
        rcases List.mem_cons.mp hq with rfl | hq
        · exact h1
        · exact Nat.lt_trans h1 (hlt q hq)
      by_cases hb : b = memFill
      · rw [if_pos h1, if_pos hb]
        split
        · next hk => rw [hfill hk, hb]
        · rfl
      · rw [if_pos h1, if_neg hb]
        simp only [Memory.byteAt, eq_comm (a := a)]
    · rw [if_neg h1]
      by_cases h2 : a = c
      · subst h2
        have hfill : k = a → Memory.byteAt rest k = memFill := by
          rintro rfl; exact byteAt_of_all_gt hlt
        rw [if_pos rfl]
        by_cases hb : b = memFill
        · rw [if_pos hb]
          by_cases hk : k = a
          · rw [if_pos hk, hfill hk, hb]
          · rw [if_neg hk, Memory.byteAt, if_neg (Ne.symm hk)]
        · rw [if_neg hb]
          by_cases hk : k = a
          · simp [Memory.byteAt, hk]
          · simp [Memory.byteAt, hk, Ne.symm hk]
      · rw [if_neg h2]
        by_cases hc : c = k
        · have : ¬ k = a := by omega
          simp [Memory.byteAt, hc, this]
        · simp [Memory.byteAt, hc, ih hrest]

/-- Where the entries of a memory with a byte set come from. -/
theorem mem_setByte {m : Memory} {a : Nat} {b : Byte} {p : Host.Cell} (h : p ∈ Memory.setByte m a b) :
    p ∈ m ∨ (p = (a, b) ∧ b ≠ memFill) := by
  induction m with
  | nil =>
    by_cases hb : b = memFill <;> simp_all [Memory.setByte]
  | cons q rest ih =>
    obtain ⟨c, v⟩ := q
    simp only [Memory.setByte] at h
    split at h
    · split at h <;> simp_all
      tauto
    · split at h
      · split at h <;> simp_all
        tauto
      · rcases List.mem_cons.mp h with rfl | h
        · simp
        · rcases ih h with h | h
          · simp [h]
          · exact .inr h

/-- Setting a byte keeps the canonical form. -/
theorem wf_setByte {m : Memory} (hm : Memory.wf m) (a : Nat) (b : Byte) : Memory.wf (Memory.setByte m a b) := by
  refine ⟨?_, fun p hp => (mem_setByte hp).elim (hm.2 p) (fun h => by rw [h.1]; exact h.2)⟩
  induction m with
  | nil => by_cases hb : b = memFill <;> simp [Memory.setByte, hb]
  | cons q rest ih =>
    obtain ⟨c, v⟩ := q
    obtain ⟨hlt, hrest⟩ := List.pairwise_cons.mp hm.1
    have hall : ∀ p ∈ rest, p.2 ≠ memFill := fun p hp => hm.2 p (by simp [hp])
    rw [Memory.setByte]
    by_cases h1 : a < c
    · rw [if_pos h1]
      split
      · exact hm.1
      · refine List.pairwise_cons.mpr ⟨fun p hp => ?_, hm.1⟩
        rcases List.mem_cons.mp hp with rfl | hp
        · exact h1
        · exact Nat.lt_trans h1 (hlt p hp)
    · rw [if_neg h1]
      by_cases h2 : a = c
      · rw [if_pos h2]
        split
        · exact hrest
        · exact List.pairwise_cons.mpr ⟨fun p hp => by rw [h2]; exact hlt p hp, hrest⟩
      · rw [if_neg h2]
        refine List.pairwise_cons.mpr ⟨fun p hp => ?_, ih ⟨hrest, hall⟩⟩
        rcases mem_setByte hp with hp | ⟨rfl, -⟩
        · exact hlt p hp
        · show c < a
          omega

theorem inWindow_setByte {c : Config} {m : Memory} (hm : Memory.inWindow c m) {a : Nat} (b : Byte)
    (h : c.memBase.toNat ≤ a ∧ a < c.memBase.toNat + c.memSize) : Memory.inWindow c (Memory.setByte m a b) := by
  intro p hp
  rcases mem_setByte hp with hp | ⟨rfl, -⟩
  · exact hm p hp
  · exact h

/-! ### A byte string -/

theorem wf_setBytes {m : Memory} (hm : Memory.wf m) (a : Nat) (bs : List Byte) : Memory.wf (Memory.setBytes m a bs) := by
  induction bs generalizing m a with
  | nil => exact hm
  | cons b rest ih => exact ih (wf_setByte hm a b) (a + 1)

theorem inWindow_setBytes {c : Config} {m : Memory} (hm : Memory.inWindow c m) {a : Nat} (bs : List Byte)
    (h : c.memBase.toNat ≤ a ∧ a + bs.length ≤ c.memBase.toNat + c.memSize) :
    Memory.inWindow c (Memory.setBytes m a bs) := by
  induction bs generalizing m a with
  | nil => exact hm
  | cons b rest ih =>
    simp only [List.length_cons] at h
    exact ih (inWindow_setByte hm b (by omega)) (by omega)

/-- A byte string that is set is read back, and every byte outside it is as before. -/
theorem byteAt_setBytes {m : Memory} (hm : Memory.wf m) (a : Nat) (bs : List Byte) (k : Nat) :
    Memory.byteAt (Memory.setBytes m a bs) k =
      if h : a ≤ k ∧ k - a < bs.length then bs[k - a] else Memory.byteAt m k := by
  induction bs generalizing m a with
  | nil => simp [Memory.setBytes]
  | cons b rest ih =>
    rw [Memory.setBytes, ih (wf_setByte hm a b), byteAt_setByte hm.1]
    by_cases hk : k = a
    · subst hk
      simp
    · by_cases h2 : a + 1 ≤ k ∧ k - (a + 1) < rest.length
      · have h3 : a ≤ k ∧ k - a < (b :: rest).length := by simp only [List.length_cons]; omega
        have h4 : k - a = (k - (a + 1)) + 1 := by omega
        rw [dif_pos h2, dif_pos h3]
        simp [h4]
      · have h3 : ¬ (a ≤ k ∧ k - a < (b :: rest).length) := by simp only [List.length_cons]; omega
        rw [dif_neg h2, dif_neg h3, if_neg hk]

/-! ### Bounds -/

theorem inRange_iff {c : Config} {a : Word} {n : Nat} :
    inRange c a n = true ↔ c.memBase.toNat ≤ a.toNat ∧ a.toNat + n ≤ c.memBase.toNat + c.memSize := by
  simp [inRange]

theorem readWord_of_inRange {s : State} {a : Word} (h : inRange s.config a 4 = true) :
    s.readWord a = .ok (wordOfBytes (Memory.byteAt s.mem a.toNat) (Memory.byteAt s.mem (a.toNat + 1))
      (Memory.byteAt s.mem (a.toNat + 2)) (Memory.byteAt s.mem (a.toNat + 3))) := if_pos h

theorem readWord_of_not_inRange {s : State} {a : Word} (h : inRange s.config a 4 = false) :
    s.readWord a = .error (.memoryFault a) := by
  simp [State.readWord, h]

/-- Reading a word answers a word or the MemoryFault of its address, by the bounds alone. -/
theorem readWord_cases (s : State) (a : Word) :
    (inRange s.config a 4 = true ∧ ∃ w, s.readWord a = .ok w) ∨
    (inRange s.config a 4 = false ∧ s.readWord a = .error (.memoryFault a)) := by
  cases h : inRange s.config a 4
  · exact .inr ⟨rfl, readWord_of_not_inRange h⟩
  · exact .inl ⟨rfl, _, readWord_of_inRange h⟩

/-! ### The loader -/

/-- What `boot` answers, and when. -/
theorem boot_cases (c : Config) (image : List Byte) :
    (c.valid = true ∧ image.length ≤ c.memSize ∧
      boot c image = .ok (State.initial c (Memory.setBytes [] c.memBase.toNat image))) ∨
    (c.valid = true ∧ c.memSize < image.length ∧ boot c image = .error .imageTooLong) ∨
    (c.valid = false ∧ boot c image = .error .badConfiguration) := by
  unfold boot
  cases h : c.valid
  · exact .inr (.inr ⟨rfl, rfl⟩)
  · by_cases hl : image.length ≤ c.memSize
    · exact .inl ⟨rfl, hl, by rw [if_pos rfl, if_pos hl]⟩
    · exact .inr (.inl ⟨rfl, by omega, by rw [if_pos rfl, if_neg hl]⟩)

theorem wf_nil : Memory.wf [] := by decide

theorem wf_placeAtPc {s : State} (h : Memory.wf s.mem) (w : Word) : Memory.wf (s.placeAtPc w).mem := by
  unfold State.placeAtPc
  split
  · exact wf_setBytes h _ _
  · exact h

end Sys2Proof.Machine
end

