-- ==== Sys2Proof/Laws/Registers.lean ====
section
/-! SUPPORT. The laws of the register file (10_state.md R21, R22) and of the commit. -/

namespace Sys2Proof.Machine

@[simp] theorem readReg_zero (s : State) : s.readReg 0 = 0#32 := rfl

@[simp] theorem writeReg_zero (s : State) (v : Word) : s.writeReg 0 v = s := rfl

theorem readReg_of_ne_zero (s : State) {r : Reg} (h : r ≠ 0) : s.readReg r = s.regs[r] := if_neg h

theorem writeReg_regs_of_ne_zero (s : State) {r : Reg} (h : r ≠ 0) (v : Word) :
    (s.writeReg r v).regs = s.regs.set r v := by
  simp [State.writeReg, h]

/-- A write to a register other than x0 is read back. -/
theorem readReg_writeReg_same (s : State) {r : Reg} (h : r ≠ 0) (v : Word) : (s.writeReg r v).readReg r = v := by
  simp [readReg_of_ne_zero _ h, writeReg_regs_of_ne_zero _ h]

/-- A write leaves every other register alone. -/
theorem readReg_writeReg_other (s : State) {r q : Reg} (h : q ≠ r) (v : Word) :
    (s.writeReg r v).readReg q = s.readReg q := by
  by_cases hr : r = 0
  · simp [hr]
  by_cases hq : q = 0
  · simp [hq]
  have hne : r.val ≠ q.val := fun e => h (Fin.ext e.symm)
  simp [readReg_of_ne_zero _ hq, writeReg_regs_of_ne_zero _ hr, hne]

/-- The storage behind x0 is never written. -/
theorem writeReg_slot_zero (s : State) (r : Reg) (v : Word) : (s.writeReg r v).regs[(0 : Reg)] = s.regs[(0 : Reg)] := by
  by_cases hr : r = 0
  · simp [hr]
  have hne : r.val ≠ 0 := fun e => hr (Fin.ext e)
  simp [writeReg_regs_of_ne_zero _ hr, hne]

theorem commit_readReg_same (s : State) (r : Reg) (v p : Word) :
    (s.commit r v p).readReg r = if r = 0 then 0#32 else v := by
  split
  · next h => simp [h]
  · next h => simp [State.commit, readReg_writeReg_same _ h]

theorem commit_readReg_other (s : State) {r q : Reg} (h : q ≠ r) (v p : Word) :
    (s.commit r v p).readReg q = s.readReg q := by
  simp [State.commit, readReg_writeReg_other _ h]

theorem commit_slot_zero (s : State) (r : Reg) (v p : Word) :
    (s.commit r v p).regs[(0 : Reg)] = s.regs[(0 : Reg)] := by
  simp only [State.commit, setPc_regs, writeReg_slot_zero]

@[simp] theorem commit_readByte (s : State) (r : Reg) (v p a : Word) : (s.commit r v p).readByte a = s.readByte a := by
  simp [State.readByte]

@[simp] theorem commit_readWord (s : State) (r : Reg) (v p a : Word) : (s.commit r v p).readWord a = s.readWord a := by
  simp [State.readWord]

end Sys2Proof.Machine
end

