-- ==== Sys2Proof/Laws/Exec.lean ====
section
/-! SUPPORT. What an instruction can do and what a step can do, said once (40_execute_writeback.md R90 to R98). -/

namespace Sys2Proof.Machine

/-- The result an instruction commits. -/
def resultOf : Instr → State → Word
  | .addi _ rs1 imm, s => s.readReg rs1 + imm
  | .slli _ rs1 n, s => shiftLeft (s.readReg rs1) n
  | .slti _ rs1 imm, s => setLessSigned (s.readReg rs1) imm
  | .sltiu _ rs1 imm, s => setLessUnsigned (s.readReg rs1) imm
  | .xori _ rs1 imm, s => s.readReg rs1 ^^^ imm
  | .srli _ rs1 n, s => shiftRightLogical (s.readReg rs1) n
  | .srai _ rs1 n, s => shiftRightArith (s.readReg rs1) n
  | .ori _ rs1 imm, s => s.readReg rs1 ||| imm
  | .andi _ rs1 imm, s => s.readReg rs1 &&& imm
  | .lui _ imm, _ => imm
  | .auipc _ imm, s => s.pc + imm
  | .jal _ _, s => seqPc s.pc
  | .jalr _ _ _, s => seqPc s.pc

/-- The next PC an instruction commits. -/
def nextPcOf : Instr → State → Word
  | .jal _ offset, s => jalTarget s.pc offset
  | .jalr _ rs1 imm, s => jalrTarget (s.readReg rs1) imm
  | .addi _ _ _, s | .slli _ _ _, s | .slti _ _ _, s | .sltiu _ _ _, s | .xori _ _ _, s => seqPc s.pc
  | .srli _ _ _, s | .srai _ _ _, s | .ori _ _ _, s | .andi _ _ _, s => seqPc s.pc
  | .lui _ _, s | .auipc _ _, s => seqPc s.pc

/-- An instruction always answers a next state, and that state is one commit. -/
theorem exec_eq_commit (i : Instr) (s : State) :
    exec i s = .next (s.commit i.rd (resultOf i s) (nextPcOf i s)) := by
  cases i <;> rfl

theorem exec_next {i : Instr} {s t : State} (h : exec i s = .next t) :
    t = s.commit i.rd (resultOf i s) (nextPcOf i s) := by
  rw [exec_eq_commit] at h
  exact (Host.Outcome.next.inj h).symm

/-- The commit of a state is what `Commits` says of it. -/
theorem commits_commit (s : State) (rd : Reg) (v p : Word) : Commits s (s.commit rd v p) rd v p :=
  ⟨commit_readReg_same s rd v p, fun r hr => commit_readReg_other s hr v p, rfl, by simp, by simp, by simp, by simp⟩

theorem decodeWord_eq_ok {w : Word} {i : Instr} : decodeWord w = .ok i ↔ (extract w).instr? = some i := by
  unfold decodeWord
  cases (extract w).instr? <;> simp

theorem decodeWord_eq_error {w : Word} {e : DecodeError} :
    decodeWord w = .error e ↔ (extract w).instr? = none ∧ e = .illegal w := by
  unfold decodeWord
  cases (extract w).instr? <;> simp [eq_comm]

theorem instr?_eq_none {w : Word} : (extract w).instr? = none ↔ classify w = .illegal := by
  unfold Decoded.instr? extract
  split <;> simp_all

/-- A word decodes to an instruction, or its class is ILLEGAL and it is rejected by name. -/
theorem decodeWord_cases (w : Word) :
    (∃ i, decodeWord w = .ok i ∧ classify w ≠ .illegal) ∨
    (decodeWord w = .error (.illegal w) ∧ classify w = .illegal) := by
  cases h : (extract w).instr? with
  | none => exact .inr ⟨decodeWord_eq_error.mpr ⟨h, rfl⟩, instr?_eq_none.mp h⟩
  | some i => exact .inl ⟨i, decodeWord_eq_ok.mpr h, fun hc => by simp [instr?_eq_none.mpr hc] at h⟩

/-- A step of the running machine on a fetched word is `execute` of that word. -/
theorem step_of_fetch {s : State} {w : Word} (hs : s.status = .running) (hv : s.config.valid = true)
    (hf : s.fetch = .ok w) : step s = execute w s := by
  simp [step, stepOnce, hs, hv, cycle, hf]

/-- Everything a step can do. -/
theorem step_cases (s : State) :
    (∃ f, s.status = .halted f ∧ step s = .fault f) ∨
    (s.status = .running ∧ s.config.valid = false ∧ step s = .refused .badConfiguration) ∨
    (s.status = .running ∧ s.config.valid = true ∧ inRange s.config s.pc 4 = false ∧
      step s = .next (s.raise (.memoryFault s.pc))) ∨
    (∃ w, s.status = .running ∧ s.config.valid = true ∧ inRange s.config s.pc 4 = true ∧ s.fetch = .ok w ∧
      classify w = .illegal ∧ step s = .next (s.raise (.illegalInstruction w))) ∨
    (∃ w i, s.status = .running ∧ s.config.valid = true ∧ inRange s.config s.pc 4 = true ∧ s.fetch = .ok w ∧
      decodeWord w = .ok i ∧ step s = exec i s) := by
  unfold step stepOnce
  cases hst : s.status with
  | halted f => exact .inl ⟨f, rfl, rfl⟩
  | running =>
    refine .inr ?_
    cases hv : s.config.valid
    · exact .inl ⟨rfl, rfl, rfl⟩
    refine .inr ?_
    rcases readWord_cases s s.pc with ⟨hr, w, hw⟩ | ⟨hr, hw⟩
    · refine .inr ?_
      have hf : s.fetch = .ok w := hw
      rcases decodeWord_cases w with ⟨i, hi, -⟩ | ⟨he, hc⟩
      · exact .inr ⟨w, i, rfl, rfl, hr, hf, hi, by simp [cycle, execute, hf, hi]⟩
      · exact .inl ⟨w, rfl, rfl, hr, hf, hc, by simp [cycle, execute, hf, he]⟩
    · have hf : s.fetch = .error (.memoryFault s.pc) := hw
      exact .inl ⟨rfl, rfl, hr, by simp [cycle, hf]⟩

/-- Everything a step that answers a next state can do: it commits one instruction, or it raises one fault. -/
theorem step_next {s t : State} (h : step s = .next t) :
    s.status = .running ∧ s.config.valid = true ∧
    ((inRange s.config s.pc 4 = false ∧ t = s.raise (.memoryFault s.pc)) ∨
     (∃ w, s.fetch = .ok w ∧ classify w = .illegal ∧ t = s.raise (.illegalInstruction w)) ∨
     (∃ w i, s.fetch = .ok w ∧ decodeWord w = .ok i ∧ t = s.commit i.rd (resultOf i s) (nextPcOf i s))) := by
  rcases step_cases s with ⟨f, -, he⟩ | ⟨-, -, he⟩ | ⟨hs, hv, hr, he⟩ | ⟨w, hs, hv, -, hf, hc, he⟩ | ⟨w, i, hs, hv, -, hf, hi, he⟩
  · simp [he] at h
  · simp [he] at h
  · rw [he] at h
    exact ⟨hs, hv, .inl ⟨hr, (Host.Outcome.next.inj h).symm⟩⟩
  · rw [he] at h
    exact ⟨hs, hv, .inr (.inl ⟨w, hf, hc, (Host.Outcome.next.inj h).symm⟩)⟩
  · rw [he] at h
    exact ⟨hs, hv, .inr (.inr ⟨w, i, hf, hi, exec_next h⟩)⟩

end Sys2Proof.Machine
end

