-- ==== Sys2Proof/Laws/PerInstr.lean ====
section
/-! SUPPORT. The family EncodedClass: the word the encoder writes for an instruction is of the instruction's class,
whatever its operands hold (30_encoding.md R70). -/

namespace Sys2Proof.Laws.EncodedClass

def Statement (i : Instr) : Prop := classify (encode i) = i.cls

theorem addi (rd rs1 : Reg) (imm : Word) : Statement (.addi rd rs1 imm) := by
  simp [Statement, encode, classify, opImmClass, Instr.cls]
theorem slli (rd rs1 : Reg) (n : Shamt) : Statement (.slli rd rs1 n) := by
  simp [Statement, encode, classify, opImmClass, Instr.cls]
theorem slti (rd rs1 : Reg) (imm : Word) : Statement (.slti rd rs1 imm) := by
  simp [Statement, encode, classify, opImmClass, Instr.cls]
theorem sltiu (rd rs1 : Reg) (imm : Word) : Statement (.sltiu rd rs1 imm) := by
  simp [Statement, encode, classify, opImmClass, Instr.cls]
theorem xori (rd rs1 : Reg) (imm : Word) : Statement (.xori rd rs1 imm) := by
  simp [Statement, encode, classify, opImmClass, Instr.cls]
theorem srli (rd rs1 : Reg) (n : Shamt) : Statement (.srli rd rs1 n) := by
  simp [Statement, encode, classify, opImmClass, Instr.cls]
theorem srai (rd rs1 : Reg) (n : Shamt) : Statement (.srai rd rs1 n) := by
  simp [Statement, encode, classify, opImmClass, Instr.cls]
theorem ori (rd rs1 : Reg) (imm : Word) : Statement (.ori rd rs1 imm) := by
  simp [Statement, encode, classify, opImmClass, Instr.cls]
theorem andi (rd rs1 : Reg) (imm : Word) : Statement (.andi rd rs1 imm) := by
  simp [Statement, encode, classify, opImmClass, Instr.cls]
theorem lui (rd : Reg) (imm : Word) : Statement (.lui rd imm) := by
  simp [Statement, encode, classify, Instr.cls]
theorem auipc (rd : Reg) (imm : Word) : Statement (.auipc rd imm) := by
  simp [Statement, encode, classify, Instr.cls]
theorem jal (rd : Reg) (offset : Word) : Statement (.jal rd offset) := by
  simp [Statement, encode, classify, Instr.cls]
theorem jalr (rd rs1 : Reg) (imm : Word) : Statement (.jalr rd rs1 imm) := by
  simp [Statement, encode, classify, Instr.cls]

end Sys2Proof.Laws.EncodedClass
end

