-- ==== Sys2Proof/Tests/Slice0.lean ====
section
/-! SUPPORT. Tests on fixed values. Expected results come from spec/95_test_vectors.md (the id stands before each test), or
from the encoding strings of spec/opcode_table.json, written out bit by bit. -/

namespace Sys2Proof.Tests

open Sys2Proof.Machine

/-! ### Well-formedness: one ill-formed term for each check, and the ends of each domain -/

theorem test_wellFormed_refuses_immI_above : (Instr.addi 1 0 2048#32).wellFormed = false := by decide
theorem test_wellFormed_refuses_immI_below : (Instr.jalr 1 0 (-2049#32)).wellFormed = false := by decide
theorem test_wellFormed_refuses_immU_low_bits : (Instr.lui 1 0x12345001#32).wellFormed = false := by decide
theorem test_wellFormed_refuses_odd_offset : (Instr.jal 1 3#32).wellFormed = false := by decide
theorem test_wellFormed_refuses_far_forward : (Instr.jal 1 1048576#32).wellFormed = false := by decide
theorem test_wellFormed_refuses_far_back : (Instr.jal 1 (-1048578#32)).wellFormed = false := by decide
theorem test_wellFormed_ends :
    (Instr.andi 1 0 2047#32).wellFormed ∧ (Instr.andi 1 0 (-2048#32)).wellFormed ∧ (Instr.auipc 1 0xFFFFF000#32).wellFormed ∧
    (Instr.jal 1 1048574#32).wellFormed ∧ (Instr.jal 1 (-1048576#32)).wellFormed ∧ (Instr.srai 1 3 31).wellFormed := by decide

/-! ### Decoding: a word of every row, from the row's encoding string -/

theorem test_decode_addi : decodeWord 0b000000000101_00000_000_00001_0010011#32 = .ok (.addi 1 0 5#32) := by decide
theorem test_decode_slli : decodeWord 0b0000000_00100_00011_001_00001_0010011#32 = .ok (.slli 1 3 4) := by decide
theorem test_decode_slti : decodeWord 0b111111111111_00011_010_00001_0010011#32 = .ok (.slti 1 3 (-1#32)) := by decide
theorem test_decode_sltiu : decodeWord 0b100000000000_11111_011_10000_0010011#32 = .ok (.sltiu 16 31 (-2048#32)) := by decide
theorem test_decode_xori : decodeWord 0b010101010101_00011_100_00001_0010011#32 = .ok (.xori 1 3 0x555#32) := by decide
theorem test_decode_srli : decodeWord 0b0000000_11111_00011_101_00001_0010011#32 = .ok (.srli 1 3 31) := by decide
theorem test_decode_srai : decodeWord 0b0100000_00100_00011_101_00001_0010011#32 = .ok (.srai 1 3 4) := by decide
theorem test_decode_ori : decodeWord 0b100000000000_00011_110_00001_0010011#32 = .ok (.ori 1 3 (-2048#32)) := by decide
theorem test_decode_andi : decodeWord 0b000011111111_00011_111_00001_0010011#32 = .ok (.andi 1 3 0xFF#32) := by decide
theorem test_decode_lui : decodeWord 0b00010010001101000101_00001_0110111#32 = .ok (.lui 1 0x12345000#32) := by decide
theorem test_decode_auipc : decodeWord 0b10000000000000000000_00001_0010111#32 = .ok (.auipc 1 0x80000000#32) := by decide
/-- Offset bits 20, 10:1, 11, 19:12 in this order. -/
theorem test_decode_jal : decodeWord 0b1_1111111110_1_11111111_00001_1101111#32 = .ok (.jal 1 (-4#32)) := by decide
/-- Offset bit 11 alone, which stands at instruction bit 20. -/
theorem test_decode_jal_bit_eleven : decodeWord 0b0_0000000000_1_00000000_00101_1101111#32 = .ok (.jal 5 2048#32) := by decide
theorem test_decode_jalr : decodeWord 0b000000000100_00011_000_00011_1100111#32 = .ok (.jalr 3 3 4#32) := by decide

/-- OI-36: `inst[31:25]` of SLLI is not checked. -/
theorem test_decode_slli_ignored : decodeWord 0xFE419093#32 = .ok (.slli 1 3 4) := by decide
/-- OI-37: bit 31 set and bit 30 clear is SRLI. -/
theorem test_decode_srli_ignored : decodeWord 0x8041D093#32 = .ok (.srli 1 3 4) := by decide
/-- IL-1 to IL-11. -/
theorem test_classify_illegal :
    [0x000190E7#32, 0x00000000#32, 0xFFFFFFFF#32, 0x00002083#32, 0x003100B3#32, 0x00000063#32, 0x00102023#32, 0x0FF0000F#32,
      0x00000073#32, 0x00100073#32, 0x00000001#32].all (fun w => classify w = .illegal) = true := by decide
theorem test_decode_refuses_by_name : decodeWord 0x000190E7#32 = .error (.illegal 0x000190E7#32) := by decide
/-- Section 2.1, the fields of `0x7FF7F2EF`, extracted whatever the class. -/
theorem test_extract_fields :
    extract 0x7FF7F2EF#32 = ⟨0x7FF7F2EF#32, .jal, .J, 5, 15, 31, 7, 0x3F, 0x7FF#32, 0x7FF7F000#32, 0x7FFFE#32, 31, true⟩ := by
  decide
theorem test_decodeBytes_truncated : decodeBytes [0x93#8, 0x00#8, 0x50#8] = .error (.truncated 3) := by decide
theorem test_decodeTableWord_srai : decodeTableWord 32 0x40005013 = some (.srai 0 0 0) := rfl
theorem test_encode_words :
    encode (.jal 1 (-4#32)) = 0xFFDFF0EF#32 ∧ encode (.srai 1 3 4) = 0x4041D093#32 ∧
    encode (.jalr 3 3 4#32) = 0x004181E7#32 ∧ encode (.lui 1 0x12345000#32) = 0x123450B7#32 := by decide

/-! ### One step on a small state -/

/-- The reset state with one register set, the PC moved and a word placed there. -/
def oneWord (pc : Word) (r : Reg) (v w : Word) : State := ((State.reset.writeReg r v).setPc pc).placeAtPc w

/-- The state after one step, if the step answers one. -/
def after (s : State) : Option State :=
  match step s with
  | .next t => some t
  | .fault _ => none
  | .refused _ => none

/-- A register and the PC after one step of a running machine that keeps running. -/
def shows (s : State) (r : Reg) (v pc : Word) : Bool :=
  (after s).map (fun t => (t.readReg r, t.pc, t.status)) = some (v, pc, .running)

/-- OI-4 -/
theorem test_addi_overflow : shows (oneWord 0x80000000#32 3 0x7FFFFFFF#32 0x00118093#32) 1 0x80000000#32 0x80000004#32 := by decide
/-- OI-9 -/
theorem test_addi_same_register : shows (oneWord 0x80000000#32 3 0x29#32 0x00118193#32) 3 0x2A#32 0x80000004#32 := by decide
/-- OI-8 -/
theorem test_x0_discards : shows (oneWord 0x80000000#32 3 1#32 0x00518013#32) 0 0#32 0x80000004#32 := by decide
/-- OI-27 -/
theorem test_slli_drops_high : shows (oneWord 0x80000000#32 3 0xDEADBEEF#32 0x00419093#32) 1 0xEADBEEF0#32 0x80000004#32 := by decide
/-- OI-11 -/
theorem test_slti_negative : shows (oneWord 0x80000000#32 3 0x80000000#32 0x0001A093#32) 1 1#32 0x80000004#32 := by decide
/-- OI-14 -/
theorem test_slti_positive : shows (oneWord 0x80000000#32 3 0x7FFFFFFF#32 0x0011A093#32) 1 0#32 0x80000004#32 := by decide
/-- OI-15 -/
theorem test_sltiu_extends_first : shows (oneWord 0x80000000#32 3 0x80000000#32 0xFFF1B093#32) 1 1#32 0x80000004#32 := by decide
/-- OI-16 -/
theorem test_sltiu_equal : shows (oneWord 0x80000000#32 3 0xFFFFFFFF#32 0xFFF1B093#32) 1 0#32 0x80000004#32 := by decide
/-- OI-20 -/
theorem test_xori_not : shows (oneWord 0x80000000#32 3 0x12345678#32 0xFFF1C093#32) 1 0xEDCBA987#32 0x80000004#32 := by decide
/-- OI-29 -/
theorem test_srli_zero_fill : shows (oneWord 0x80000000#32 3 0xDEADBEEF#32 0x0041D093#32) 1 0x0DEADBEE#32 0x80000004#32 := by decide
/-- OI-32 -/
theorem test_srai_sign_fill : shows (oneWord 0x80000000#32 3 0xDEADBEEF#32 0x4041D093#32) 1 0xFDEADBEE#32 0x80000004#32 := by decide
/-- OI-33 -/
theorem test_srai_by_31 : shows (oneWord 0x80000000#32 3 0x80000000#32 0x41F1D093#32) 1 0xFFFFFFFF#32 0x80000004#32 := by decide
/-- OI-22 -/
theorem test_ori_negative : shows (oneWord 0x80000000#32 3 1#32 0x8001E093#32) 1 0xFFFFF801#32 0x80000004#32 := by decide
/-- OI-25 -/
theorem test_andi_negative : shows (oneWord 0x80000000#32 3 0xDEADBEEF#32 0xFF01F093#32) 1 0xDEADBEE0#32 0x80000004#32 := by decide
/-- UI-3 -/
theorem test_lui_clears : shows (oneWord 0x80000000#32 1 0xDEADBEEF#32 0x000000B7#32) 1 0#32 0x80000004#32 := by decide
/-- UI-7 -/
theorem test_auipc_back : shows (oneWord 0x80000000#32 3 0#32 0xFFFFF097#32) 1 0x7FFFF000#32 0x80000004#32 := by decide
/-- UI-8 -/
theorem test_auipc_wraps : shows (oneWord 0x80000000#32 3 0#32 0x80000097#32) 1 0#32 0x80000004#32 := by decide
/-- CT-3 -/
theorem test_jal_back : shows (oneWord 0x80000010#32 3 0#32 0xFFDFF0EF#32) 1 0x80000014#32 0x8000000C#32 := by decide
/-- CT-6 -/
theorem test_jal_min : shows (oneWord 0x80000000#32 3 0#32 0x800002EF#32) 5 0x80000004#32 0x7FF00000#32 := by decide
/-- CT-10 -/
theorem test_jalr_same_register : shows (oneWord 0x80000000#32 3 0x80000100#32 0x004181E7#32) 3 0x80000004#32 0x80000104#32 := by decide
/-- CT-13 -/
theorem test_jalr_wraps : shows (oneWord 0x80000000#32 3 1#32 0xFFE180E7#32) 1 0x80000004#32 0xFFFFFFFE#32 := by decide
/-- FE-2: the last full word of the window. -/
theorem test_fetch_last_word : shows (oneWord 0x800FFFFC#32 3 0#32 0x00500093#32) 1 5#32 0x80100000#32 := by decide

/-- A fetch at `pc` halts with a MemoryFault that records it, and leaves the PC. -/
def haltsAt (pc : Word) : Bool :=
  (after (State.reset.setPc pc)).map (fun t => (t.pc, t.status)) = some (pc, .halted (.memoryFault pc))
/-- FE-3, FE-4, FE-8: above the window, with no wrap of `addr + 3`. -/
theorem test_fetch_above : haltsAt 0x800FFFFD#32 ∧ haltsAt 0x80100000#32 ∧ haltsAt 0xFFFFFFFC#32 := by decide
/-- FE-5, FE-6, FE-7: below the window. -/
theorem test_fetch_below : haltsAt 0x7FFFFFFC#32 ∧ haltsAt 0x7FFFFFFF#32 ∧ haltsAt 0x00000000#32 := by decide
/-- FE-9: the word at an address that is 2 modulo 4. -/
theorem test_fetch_unaligned :
    (after { State.reset with mem := [(0x80000000, 0x6F#8), (0x80000002, 0x20#8), (0x80000004, 0x13#8)], pc := 0x80000002#32 }).map
      (fun t => (t.pc, t.status)) = some (0x80000002#32, .halted (.illegalInstruction 0x00130020#32)) := by decide
/-- L1-8: the first step from reset with no image fetches the zero word. -/
theorem test_step_from_reset :
    after State.reset = some { State.reset with status := .halted (.illegalInstruction 0#32) } := by decide
/-- R171: the reset state's stack pointer. -/
theorem test_reset_sp : State.reset.readReg 2 = 0x80100000#32 := by decide
/-- The window's size 20 of program P4 gives the stack pointer 0x80000014. -/
theorem test_boot_sp :
    (boot ⟨0x80000000#32, 20⟩ [0x97#8, 0x02#8]).toOption.map (fun s => (s.readReg 2, s.pc, s.mem)) =
      some (0x80000014#32, 0x80000000#32, [(0x80000000, 0x97#8), (0x80000001, 0x02#8)]) := by decide
theorem test_setByte_keeps_canonical_form :
    Memory.setByte [(4, 1#8), (6, 2#8)] 5 3#8 = [(4, 1#8), (5, 3#8), (6, 2#8)] ∧
    Memory.setByte [(4, 1#8), (6, 2#8)] 6 0#8 = [(4, 1#8)] := by decide
/-- CT-T2 of section 2.7: the ALU's shift amount is the low five bits of the immediate. -/
theorem test_datapath_srai :
    (datapath (extract 0x41F1D093#32) (oneWord 0x80000000#32 3 0x80000000#32 0x41F1D093#32)).map (fun t => t.readReg 1) =
      some 0xFFFFFFFF#32 := by decide
/-- R79's example in P2: `li x11, 0xDEADBEEF` is `lui 0xDEADC` then `addi -0x111`. -/
theorem test_li_carry :
    (Pseudo.li 11 0xDEADBEEF#32).expand = [.lui 11 0xDEADC000#32, .addi 11 11 (-0x111#32)] := by decide
/-- The assembly column of P1 and P3. -/
theorem test_asm : asm (.addi 5 0 (-1#32)) = "addi x5, x0, -1" ∧ asm (.jalr 0 1 0#32) = "jalr x0, 0(x1)" := by decide
theorem test_abiNames : abiNames.length = 32 ∧ abiNames[2]? = some "sp" ∧ abiNames[31]? = some "t6" := by decide

/-! ### Witnesses: each shows a state and operands that meet all the hypotheses of a statement together -/

/-- ImmediateIIsSignExtendedTopField (a JALR word), ImmediateUIsUpperTwentyBits, BitThirtySelectsTheRightShift (both values). -/
theorem witness_immediates_and_shift_select :
    classify 0x000180E7#32 = .jalr ∧ (0xFFFFF000#32 &&& 0x00000FFF#32 = 0#32) ∧
    (opcodeOf 0x0041D093#32 = 0x13#7 ∧ funct3Of 0x0041D093#32 = 5 ∧ (0x0041D093#32).getLsbD 30 = false) ∧
    (opcodeOf 0x4041D093#32 = 0x13#7 ∧ funct3Of 0x4041D093#32 = 5 ∧ (0x4041D093#32).getLsbD 30 = true) := by decide

/-- ClassificationFollowsOpcodeAndFunct3: each clause at one word, and the mask clause at two words that differ. -/
theorem witness_classification :
    [0x00000013, 0x00001013, 0x00002013, 0x00003013, 0x00004013, 0x00005013, 0x40005013, 0x00006013, 0x00007013, 0x00000037, 0x00000017,
      0x0000006F, 0x00000067, 0x00001067, 0x00000073].map (fun n => classify (BitVec.ofNat 32 n)) =
      [.addi, .slli, .slti, .sltiu, .xori, .srli, .srai, .ori, .andi, .lui, .auipc, .jal, .jalr, .illegal, .illegal] ∧
    (0xFE419093#32 &&& 0x4000707F#32 = 0x40001013#32 &&& 0x4000707F#32) := by decide

/-- ClassificationIsTheOpcodeTable and the DecodesRow clause of each of the thirteen instruction statements: a word in
every row, with every unfixed bit set. -/
theorem witness_opcode_table :
    ∀ row ∈ opcodeTable, (row.2.2 ||| ~~~row.2.1) &&& row.2.1 = row.2.2 ∧ classify (row.2.2 ||| ~~~row.2.1) = row.1 := by decide

/-- IllegalWordsAreExactlyTheUnhandledOnes: a running state, words of both kinds of ILLEGAL, and one not ending in 11. -/
theorem witness_illegal :
    State.reset.status = .running ∧ classify 0x000190E7#32 = .illegal ∧ classify 0x00000073#32 = .illegal ∧
    (0x00000001#32).toNat % 4 ≠ 3 := by decide

/-- UncheckedBitsDoNotChangeTheInstruction: two different SLLI words, and two different SRAI words. -/
theorem witness_unchecked_bits :
    (classify 0x00419093#32 ≠ .illegal ∧
      0x00419093#32 &&& (classify 0x00419093#32).readMask = 0xFE419093#32 &&& (classify 0x00419093#32).readMask) ∧
    (classify 0x4041D093#32 ≠ .illegal ∧
      0x4041D093#32 &&& (classify 0x4041D093#32).readMask = 0xFE41D093#32 &&& (classify 0x4041D093#32).readMask) := by decide

/-- ImmediateEncodersRoundTrip: the ends of each domain. -/
theorem witness_encoder_domains :
    immIFits 2047#32 ∧ immIFits (-2048#32) ∧ immUFits 0xFFFFF000#32 ∧ immUFits 0#32 ∧ immJFits 1048574#32 ∧
    immJFits (-1048576#32) := by decide

/-- DecodeOfEncodeIsTheInstruction (`test_wellFormed_ends` shows more) and EncodeOfDecodeIsTheWordReadBits. -/
theorem witness_round_trips :
    (Instr.sltiu 31 17 (-2048#32)).wellFormed = true ∧ decodeWord 0xFE419093#32 = .ok (.slli 1 3 4) := by decide

/-- ResultDependsOnlyOnSourceRegisterAndPc: two states that differ in x2 and agree in the PC and in the source x3. -/
theorem witness_same_source :
    State.reset.pc = (State.reset.writeReg 2 7#32).pc ∧
    (∀ r, (Instr.addi 1 3 5#32).source = some r → State.reset.readReg r = (State.reset.writeReg 2 7#32).readReg r) ∧
    State.reset ≠ State.reset.writeReg 2 7#32 := by decide

/-- WordReadIsLittleEndianAndBoundsChecked and ByteReadIsBoundsChecked: the addresses where their clauses meet. -/
theorem witness_bounds :
    State.reset.readWord 0x800FFFFC#32 = .ok 0#32 ∧
    State.reset.readWord 0x800FFFFD#32 = .error (.memoryFault 0x800FFFFD#32) ∧
    State.reset.readWord 0x80000000#32 = .ok 0#32 ∧
    State.reset.readWord 0x7FFFFFFF#32 = .error (.memoryFault 0x7FFFFFFF#32) ∧
    State.reset.readByte 0x800FFFFF#32 = .ok 0#8 ∧
    State.reset.readByte 0x80100000#32 = .error (.memoryFault 0x80100000#32) ∧
    State.reset.readByte 0x7FFFFFFF#32 = .error (.memoryFault 0x7FFFFFFF#32) ∧
    (oneWord 0x80000000#32 3 0#32 0x00500093#32).fetch = .ok 0x00500093#32 := by decide

/-- A launch of four bytes that fills its window: JAL x0, 0. -/
def loopConfig : Config := ⟨0x80000000#32, 4⟩
def loopImage : List Byte := [0x6F#8, 0x00#8, 0x00#8, 0x00#8]
def loopState : State := State.initial loopConfig [(0x80000000, 0x6F#8)]

/-- ReachableMemoryIsTheLaunchContent, BootPlacesTheImageVerbatim, ResetPcIsMemBase, BootMeetsTheInvariant and
ReachableStatesMeetTheInvariant: a boot that succeeds and two steps from it. -/
theorem witness_launch :
    boot loopConfig loopImage = .ok loopState ∧ loopImage.length = loopConfig.memSize ∧
    Host.Core.run Sys2Proof.core 2 loopState = .next loopState := by
  refine ⟨by decide, by decide, rfl⟩

theorem witness_reachable : ReachedBy loopConfig loopImage 2 loopState := ⟨_, witness_launch.1, witness_launch.2.2⟩

/-- AluComputesItsTable: a shift amount of 0 modulo 32 with higher bits set. -/
theorem witness_zero_shift : (0xFFFFFFE0#32).toNat % 32 = 0 := by decide

/-- DatapathAgreesWithInstructionRules: a word of either kind. -/
theorem witness_datapath : decodeWord 0x4041D093#32 = .ok (.srai 1 3 4) ∧ classify 0x00000073#32 = .illegal := by decide

/-- EveryInstructionChangesOnlyDestinationAndPc, and ZeroDestinationDiscardsTheResult (`rd = 0`). -/
theorem witness_exec :
    (∃ t, exec (.jalr 1 2 8#32) State.reset = .next t) ∧ (Instr.jal 0 8#32).rd = 0 := ⟨⟨_, rfl⟩, rfl⟩

/-- StepRunsTheDecodedInstruction. -/
theorem witness_step :
    loopState.status = .running ∧ loopState.config.valid = true ∧ inRange loopState.config loopState.pc 4 = true ∧
    decodeBytes [Memory.byteAt loopState.mem loopState.pc.toNat, Memory.byteAt loopState.mem (loopState.pc.toNat + 1),
      Memory.byteAt loopState.mem (loopState.pc.toNat + 2), Memory.byteAt loopState.mem (loopState.pc.toNat + 3)] =
      .ok (.jal 0 0#32, []) := by decide

/-- StepRunsThePlacedWord, at the last full word of the window. -/
theorem witness_placed_word :
    (State.reset.setPc 0x800FFFFC#32).status = .running ∧ (State.reset.setPc 0x800FFFFC#32).config.valid = true ∧
    inRange State.reset.config 0x800FFFFC#32 4 = true ∧ Memory.wf State.reset.mem ∧
    decodeTableWord 32 0x00000067 = some (.jalr 0 0 0#32) := by decide

/-- FetchOutsideTheWindowHaltsWithMemoryFault: `test_fetch_above` and `test_fetch_below` run both sides; here the hypotheses at both ends. -/
theorem witness_fetch_outside :
    State.reset.status = .running ∧ State.reset.config.valid = true ∧
    ((0x7FFFFFFF#32).toNat < State.reset.config.memBase.toNat) ∧
    ((0x800FFFFD#32).toNat + 3 ≥ State.reset.config.memBase.toNat + State.reset.config.memSize) := by decide

/-- FetchedIllegalWordHaltsWithIllegalInstruction, and the clauses of DriverReceivesOneResultPerStep: MemoryFault,
IllegalInstruction, Ok, and no step from a halted state. -/
theorem witness_driver_results :
    (State.reset.status = .running ∧ State.reset.config.valid = true ∧ State.reset.fetch = .ok 0#32 ∧ classify 0#32 = .illegal) ∧
    inRange State.reset.config (State.reset.setPc 0x80100000#32).pc 4 = false ∧
    (loopState.fetch = .ok 0x0000006F#32 ∧ classify 0x0000006F#32 ≠ .illegal) ∧
    (State.reset.raise (.memoryFault 0#32)).status = .halted (.memoryFault 0#32) := by decide

/-- HaltedRunGoesNoFurther. -/
theorem witness_halted :
    (loopState.raise (.illegalInstruction 1#32)).status = .halted (.illegalInstruction 1#32) := by decide

/-- StepCommitsAllOrNothing: a step that commits and a step that halts. -/
theorem witness_steps : step loopState = .next loopState ∧
    step State.reset = .next (State.reset.raise (.illegalInstruction 0#32)) := ⟨rfl, rfl⟩

/-- BootAcceptsExactlyValidLaunches: each clause, with the configurations at the ends of the constraints. -/
theorem witness_configurations :
    (⟨0x80000002#32, 4⟩ : Config).valid = false ∧ (⟨0xFFFFFFFC#32, 5⟩ : Config).valid = false ∧
    (⟨0xFFFFFFFC#32, 4⟩ : Config).valid = true ∧ (⟨0#32, 0⟩ : Config).valid = true ∧
    loopConfig.memSize < (0x00#8 :: loopImage).length ∧ loopImage.length ≤ loopConfig.memSize ∧
    (State.initial ⟨0x80000002#32, 4⟩ []).status = .running := by decide

/-- EveryStepKeepsTheInvariant: a state that is not the reset state meets the invariant, and steps. -/
theorem witness_invariant : loopState.Inv ∧ step loopState = .next loopState := by
  refine ⟨⟨by decide, by decide, by decide, by decide, by decide, ?_⟩, rfl⟩
  intro f h
  exact Status.noConfusion h

/-- AlignedTargetsKeepThePcAligned: the loop's target is its own address. -/
theorem witness_aligned : loopState.pc.toNat % 4 = 0 ∧
    (∀ w i, loopState.fetch = .ok w → decodeWord w = .ok i → AlignedTarget i loopState) ∧ step loopState = .next loopState := by
  refine ⟨by decide, fun w i hw hi => ?_, rfl⟩
  have h1 : w = 0x0000006F#32 := (Except.ok.inj hw).symm
  subst h1
  have h2 : i = .jal 0 0#32 := (Except.ok.inj hi).symm
  subst h2
  exact rfl

/-- UnalignedTargetIsFetchedWithoutFault: CT-4, JAL to a half-word address, and JALR from `x2 = 0x80100000` to the last
unaligned word of the window. -/
theorem witness_unaligned :
    ((State.reset.pc + 2#32).toNat % 4 = 2 ∧ inRange State.reset.config (State.reset.pc + 2#32) 4 = true) ∧
    (((State.reset.readReg 2 + 0xFFFFFFFA#32) &&& 0xFFFFFFFE#32).toNat % 4 = 2 ∧
      inRange State.reset.config ((State.reset.readReg 2 + 0xFFFFFFFA#32) &&& 0xFFFFFFFE#32) 4 = true) ∧
    State.reset.status = .running ∧ State.reset.config.valid = true := by decide

/-- CallTailAndAddressExpansionsReachTheOffset: the even offset and PC of its second clause. -/
theorem witness_call : (0xFFFFF802#32).toNat % 2 = 0 ∧ State.reset.pc.toNat % 2 = 0 := by decide

/-- EveryStepLeavesMemoryAndConfiguration: a step from a state no run reaches (an odd PC), and one that halts. -/
theorem witness_step_memory :
    step (oneWord 0x80000001#32 3 0#32 0x00500093#32) =
      .next ((oneWord 0x80000001#32 3 0#32 0x00500093#32).commit 1 5#32 0x80000005#32) ∧
    step State.reset = .next (State.reset.raise (.illegalInstruction 0#32)) := ⟨rfl, rfl⟩

/-! ### The per-instruction family at one instruction -/

theorem test_encoded_class : Laws.EncodedClass.Statement (.jal 1 0xFFFFFFFC#32) := Laws.EncodedClass.jal _ _

end Sys2Proof.Tests
end

namespace Sys2Proof.Machine

/-! ### Proofs of 10_state.md: the zero rule of the register file and the reset vector -/

/-- A boot that answers a state answers the initial state over the image placed at `MEM_BASE`. -/
theorem boot_ok {c : Config} {image : List Byte} {s : State} (h : boot c image = .ok s) :
    s = State.initial c (Memory.setBytes [] c.memBase.toNat image) := by
  obtain ⟨-, -, hb⟩ | ⟨-, -, hb⟩ | ⟨-, hb⟩ := boot_cases c image
  · exact Except.ok.inj (h.symm.trans hb)
  · exact nomatch h.symm.trans hb
  · exact nomatch h.symm.trans hb

/-- The register file after a commit is that of its one register write. -/
@[simp] theorem commit_regs (s : State) (rd : Reg) (v p : Word) : (s.commit rd v p).regs = (s.writeReg rd v).regs :=
  setPc_regs _ _

/-- Settles O14: the laws of `readReg` and `writeReg`, and every instruction being one commit to its `rd`. -/
theorem registerReadsAndWritesFollowTheZeroRule : Obligations.RegisterReadsAndWritesFollowTheZeroRule :=
  ⟨readReg_zero,
   fun s _ hr => readReg_of_ne_zero s hr,
   writeReg_zero,
   fun s _ v hr => ⟨readReg_writeReg_same s hr v, fun _ hq => readReg_writeReg_other s hq v⟩,
   fun i s => ⟨_, resultOf i s, exec_eq_commit i s, commit_regs s i.rd _ _⟩⟩

/-- Settles O47: the PC of the initial state is the reset vector, and a successful boot answers an initial state. -/
theorem resetPcIsMemBase : Obligations.ResetPcIsMemBase := by
  refine ⟨initial_pc Config.reference [], initial_pc, fun c image s h => ?_⟩
  rw [boot_ok h]
  exact initial_pc c _

end Sys2Proof.Machine

namespace Sys2Proof.Machine

/-! ### Proofs of 20_memory.md: the reads (R42 to R47) -/

/-- The bit `j` of byte `k` of a little-endian word, the bytes given by their offset from the lowest address. -/
theorem getLsbD_wordOfBytes (byte : Nat → Byte) {k j : Nat} (hk : k < 4) (hj : j < 8) :
    (wordOfBytes (byte 0) (byte 1) (byte 2) (byte 3)).getLsbD (8 * k + j) = (byte k).getLsbD j := by
  unfold wordOfBytes
  simp only [BitVec.getLsbD_append]
  obtain rfl | rfl | rfl | rfl : k = 0 ∨ k = 1 ∨ k = 2 ∨ k = 3 := by omega
  · simp [hj]
  · simp [hj]
  · simp [hj, show ¬ 16 + j < 8 by omega, show ¬ 16 + j - 8 < 8 by omega, show 16 + j - 8 - 8 = j by omega]
  · simp [hj, show ¬ 24 + j < 8 by omega, show ¬ 24 + j - 8 < 8 by omega, show ¬ 24 + j - 8 - 8 < 8 by omega,
      show 24 + j - 8 - 8 - 8 = j by omega]

/-- The low byte of a little-endian word is the one at the lowest address. -/
theorem lowByte_wordOfBytes (b0 b1 b2 b3 : Byte) : (wordOfBytes b0 b1 b2 b3).extractLsb' 0 8 = b0 :=
  BitVec.extractLsb'_append_eq_right

/-- A word read that starts below the window, or whose last byte lies at or above its end, is out of range (rule R41). -/
theorem inRange_four_eq_false {c : Config} {a : Word}
    (h : a.toNat < c.memBase.toNat ∨ a.toNat + 3 ≥ c.memBase.toNat + c.memSize) : inRange c a 4 = false := by
  rw [Bool.eq_false_iff, ne_eq, inRange_iff]
  omega

theorem readByte_of_inRange {s : State} {a : Word} (h : inRange s.config a 1 = true) :
    s.readByte a = .ok (Memory.byteAt s.mem a.toNat) := if_pos h

/-- A word read inside the window gives the four bytes, bit by bit. -/
theorem readWord_bits {s : State} {a : Word} (h : inRange s.config a 4 = true) :
    ∃ w, s.readWord a = .ok w ∧
      ∀ k j, k < 4 → j < 8 → w.getLsbD (8 * k + j) = (Memory.byteAt s.mem (a.toNat + k)).getLsbD j :=
  ⟨_, readWord_of_inRange h, fun _ _ hk hj => getLsbD_wordOfBytes (fun i => Memory.byteAt s.mem (a.toNat + i)) hk hj⟩

/-- Where a word can be read, its low byte is what the byte read at the same address gives. -/
theorem readByte_of_readWord {s : State} {a w : Word} (h : s.readWord a = .ok w) :
    s.readByte a = .ok (w.extractLsb' 0 8) := by
  obtain ⟨hr, -⟩ | ⟨-, he⟩ := readWord_cases s a
  · obtain rfl := Except.ok.inj ((readWord_of_inRange hr).symm.trans h)
    obtain ⟨hlo, hhi⟩ := inRange_iff.mp hr
    rw [lowByte_wordOfBytes, readByte_of_inRange (inRange_iff.mpr ⟨hlo, by omega⟩)]
  · exact nomatch he.symm.trans h

/-- Settles O17: outside the window the bounds test fails; inside it the bits are those of the four bytes. -/
theorem wordReadIsLittleEndianAndBoundsChecked : Obligations.WordReadIsLittleEndianAndBoundsChecked :=
  ⟨fun _ _ =>
    ⟨fun hout => readWord_of_not_inRange (inRange_four_eq_false hout),
     fun hlo hhi => readWord_bits (inRange_iff.mpr ⟨hlo, by omega⟩)⟩,
   fun _ => rfl,
   fun _ _ hf => readByte_of_readWord hf⟩

/-! ### Proofs of 20_memory.md: memory is never modified (R49) -/

/-- A step commits a register and the PC or raises a fault, and neither touches memory or the configuration. -/
theorem step_keeps_mem_config {s t : State} (h : step s = .next t) : t.mem = s.mem ∧ t.config = s.config := by
  obtain ⟨-, -, ⟨-, rfl⟩ | ⟨w, -, -, rfl⟩ | ⟨w, i, -, -, rfl⟩⟩ := step_next h
  · exact ⟨raise_mem s _, raise_config s _⟩
  · exact ⟨raise_mem s _, raise_config s _⟩
  · exact ⟨commit_mem s _ _ _, commit_config s _ _ _⟩

/-- A run of `k + 1` steps that answers a next state is a step that does, and a run of `k` steps from there. -/
theorem run_succ_next {M : Host.Core} {k : Nat} {s t : M.State} :
    M.run (k + 1) s = .next t ↔ ∃ u, M.step s = .next u ∧ M.run k u = .next t := by
  rw [Host.Core.run]
  cases M.step s <;> simp

/-- What every step keeps holds after every run. -/
theorem run_keeps {M : Host.Core} {P : M.State → Prop} (hstep : ∀ s t, P s → M.step s = .next t → P t) {k : Nat}
    {s t : M.State} (hs : P s) (h : M.run k s = .next t) : P t := by
  induction k generalizing s with
  | zero => exact Host.Outcome.next.inj h ▸ hs
  | succ k ih =>
    obtain ⟨u, hu, hrun⟩ := run_succ_next.mp h
    exact ih (hstep s u hs hu) hrun

/-- Memory and configuration after a run are those before it. -/
theorem run_keeps_mem_config {k : Nat} {s t : State} (h : Host.Core.run Sys2Proof.core k s = .next t) :
    t.mem = s.mem ∧ t.config = s.config := by
  refine run_keeps (M := Sys2Proof.core) (P := fun u : State => u.mem = s.mem ∧ u.config = s.config) ?_ ⟨rfl, rfl⟩ h
  rintro u v ⟨hmem, hconfig⟩ huv
  obtain ⟨hmem', hconfig'⟩ := step_keeps_mem_config huv
  exact ⟨hmem'.trans hmem, hconfig'.trans hconfig⟩

/-- A byte read sees nothing of a state but its memory and configuration. -/
theorem readByte_congr {s t : State} (hmem : t.mem = s.mem) (hconfig : t.config = s.config) (a : Word) :
    t.readByte a = s.readByte a := by
  rw [State.readByte, State.readByte, hmem, hconfig]

/-- The constraints of rule R8. -/
theorem config_valid_iff {c : Config} :
    c.valid = true ↔ c.memBase.toNat % 4 = 0 ∧ c.memBase.toNat + c.memSize ≤ 2 ^ 32 := by
  simp [Config.valid]

/-- `boot` accepts only valid configurations and images that fit the window. -/
theorem boot_accepts {c : Config} {image : List Byte} {s : State} (h : boot c image = .ok s) :
    c.valid = true ∧ image.length ≤ c.memSize := by
  obtain ⟨hv, hl, -⟩ | ⟨-, -, hb⟩ | ⟨-, hb⟩ := boot_cases c image
  · exact ⟨hv, hl⟩
  · exact nomatch h.symm.trans hb
  · exact nomatch h.symm.trans hb

/-- The loader places the image verbatim at `MEM_BASE`, with `memFill` after it (rule R37). -/
theorem boot_readByte {c : Config} {image : List Byte} {s : State} (h : boot c image = .ok s) {j : Nat}
    (hj : j < c.memSize) :
    s.readByte (BitVec.ofNat 32 (c.memBase.toNat + j)) = .ok (image.getD j memFill) := by
  obtain ⟨-, hend⟩ := config_valid_iff.mp (boot_accepts h).1
  have haddr : (BitVec.ofNat 32 (c.memBase.toNat + j)).toNat = c.memBase.toNat + j := by
    rw [BitVec.toNat_ofNat, Nat.mod_eq_of_lt (by omega)]
  have hrange : inRange c (BitVec.ofNat 32 (c.memBase.toNat + j)) 1 = true :=
    inRange_iff.mpr (by rw [haddr]; omega)
  obtain rfl := boot_ok h
  rw [readByte_of_inRange hrange, haddr, initial_mem, byteAt_setBytes wf_nil]
  by_cases hl : j < image.length
  · simp [hl]
  · simp [hl, Memory.byteAt]

/-- Settles O20: every step keeps memory and configuration, so a read after a run is the read at boot, which gives the image. -/
theorem reachableMemoryIsTheLaunchContent : Obligations.ReachableMemoryIsTheLaunchContent := by
  intro c image s t k hboot hlen hrun
  obtain ⟨hmem, hconfig⟩ := run_keeps_mem_config hrun
  refine ⟨hmem, fun j hj => ?_⟩
  rw [readByte_congr hmem hconfig, boot_readByte hboot (hlen ▸ hj), List.getD_eq_getElem _ _ hj]

end Sys2Proof.Machine

namespace Sys2Proof.Machine

/-! ### Proofs of 30_encoding.md: the immediates read as signed numbers, and by their bits (R63 to R65) -/

/-- `sext_N` keeps the signed value (rule R11). -/
theorem sext_toInt {n : Nat} (hn : n ≤ 32) (v : BitVec n) : (sext n v).toInt = v.toInt :=
  BitVec.toInt_signExtend_of_le hn

theorem immI_toInt (w : Word) : (immI w).toInt = (w.extractLsb' 20 12).toInt := sext_toInt (by decide) _

theorem immU_toInt (w : Word) : (immU w).toInt = 2 ^ 12 * (w.extractLsb' 12 20).toInt := BitVec.toInt_append_zero

/-- The offset of rule R65 is a signed 20-bit field counted in units of 2. -/
theorem immJ_toInt (w : Word) :
    (immJ w).toInt =
      2 ^ 1 * (w.extractLsb' 31 1 ++ w.extractLsb' 12 8 ++ w.extractLsb' 20 1 ++ w.extractLsb' 21 10).toInt :=
  (sext_toInt (by decide) _).trans BitVec.toInt_append_zero

theorem immI_bounds (w : Word) : -2048 ≤ (immI w).toInt ∧ (immI w).toInt ≤ 2047 := by
  have hlo := BitVec.le_toInt (w.extractLsb' 20 12)
  have hhi := BitVec.toInt_lt (x := w.extractLsb' 20 12)
  rw [immI_toInt]
  omega

theorem immU_bounds (w : Word) :
    (immU w).toInt % 4096 = 0 ∧ -2147483648 ≤ (immU w).toInt ∧ (immU w).toInt ≤ 2147479552 := by
  have hlo := BitVec.le_toInt (w.extractLsb' 12 20)
  have hhi := BitVec.toInt_lt (x := w.extractLsb' 12 20)
  rw [immU_toInt]
  omega

theorem immJ_bounds (w : Word) :
    (immJ w).toInt % 2 = 0 ∧ -1048576 ≤ (immJ w).toInt ∧ (immJ w).toInt ≤ 1048574 := by
  have hlo := BitVec.le_toInt (w.extractLsb' 31 1 ++ w.extractLsb' 12 8 ++ w.extractLsb' 20 1 ++ w.extractLsb' 21 10)
  have hhi := BitVec.toInt_lt (x := w.extractLsb' 31 1 ++ w.extractLsb' 12 8 ++ w.extractLsb' 20 1 ++ w.extractLsb' 21 10)
  rw [immJ_toInt]
  omega

/-- `imm_U` clears the low 12 bits of the word (rule R64). -/
theorem immU_eq_and (w : Word) : immU w = w &&& 0xFFFFF000#32 := by
  apply BitVec.eq_of_getLsbD_eq
  intro k hk
  have hmask : ∀ j < 32, (0xFFFFF000#32).getLsbD j = !decide (j < 12) := by decide
  rw [getLsbD_immU w hk, BitVec.getLsbD_and, hmask k hk]
  by_cases h : k < 12 <;> simp [h]

/-- A value whose low 12 bits are zero is its own `imm_U`. -/
theorem immU_of_low_zero {v : Word} (h : v &&& 0x00000FFF#32 = 0#32) : immU v = v :=
  calc immU v
    _ = v &&& 0xFFFFF000#32 ||| v &&& 0x00000FFF#32 := by rw [h, BitVec.or_zero, immU_eq_and]
    _ = v &&& (0xFFFFF000#32 ||| 0x00000FFF#32) := BitVec.and_or_distrib_left.symm
    _ = v := BitVec.and_allOnes

/-! ### Proofs of 30_encoding.md: classification (R67, R70) -/

/-- A word of a known class decodes to the instruction its record gives for that class. -/
theorem decodeWord_of_classify {w : Word} {c : InstrClass} {i : Instr} (hc : classify w = c)
    (hi : { extract w with cls := c }.instr? = some i) : decodeWord w = .ok i :=
  decodeWord_eq_ok.mpr (by subst hc; exact hi)

/-- Bit `k` of funct7 is bit `25 + k` of the word. -/
theorem testBit_funct7Of (w : Word) {k : Nat} (hk : k < 7) : (funct7Of w).val.testBit k = w.getLsbD (25 + k) := by
  refine (BitVec.testBit_toNat (w.extractLsb' 25 7)).trans ?_
  simp [hk]

/-- The opcode as a number (rule R61). -/
theorem opcodeOf_toNat (w : Word) : (opcodeOf w).toNat = w.toNat % 128 := BitVec.extractLsb'_toNat 0 7 w

theorem opcodeOf_eq_iff {w : Word} {op : BitVec 7} : opcodeOf w = op ↔ w.toNat % 128 = op.toNat := by
  rw [BitVec.toNat_eq, opcodeOf_toNat]

/-- funct3 as a number (rule R61). -/
theorem funct3Of_val (w : Word) : (funct3Of w).val = w.toNat / 4096 % 8 :=
  (BitVec.extractLsb'_toNat 12 3 w).trans (by rw [Nat.shiftRight_eq_div_pow])

theorem funct3Of_eq_iff {w : Word} {f : Fin 8} : funct3Of w = f ↔ w.toNat / 4096 % 8 = f.val := by
  rw [Fin.ext_iff, funct3Of_val]

theorem classify_opImm {w : Word} (h : opcodeOf w = 0x13#7) : classify w = opImmClass (funct3Of w) (arithOf w) :=
  if_pos h

theorem classify_lui {w : Word} (h : opcodeOf w = 0x37#7) : classify w = .lui := by
  simp [classify, h]

theorem classify_auipc {w : Word} (h : opcodeOf w = 0x17#7) : classify w = .auipc := by
  simp [classify, h]

theorem classify_jal {w : Word} (h : opcodeOf w = 0x6F#7) : classify w = .jal := by
  simp [classify, h]

theorem classify_jalr {w : Word} (h : opcodeOf w = 0x67#7) :
    classify w = if funct3Of w = 0 then .jalr else .illegal := by
  simp [classify, h]

/-- An opcode outside rule R70's table is ILLEGAL. -/
theorem classify_other {w : Word} (h13 : opcodeOf w ≠ 0x13#7) (h37 : opcodeOf w ≠ 0x37#7) (h17 : opcodeOf w ≠ 0x17#7)
    (h6F : opcodeOf w ≠ 0x6F#7) (h67 : opcodeOf w ≠ 0x67#7) : classify w = .illegal := by
  simp [classify, h13, h37, h17, h6F, h67]

/-- Under opcode 0x13 the class is the one of funct3 and bit 30, both given by number. -/
theorem classify_opImm_of_toNat {w : Word} (hop : w.toNat % 128 = 0x13) {f : Fin 8}
    (hf : w.toNat / 4096 % 8 = f.val) : classify w = opImmClass f (w.getLsbD 30) := by
  rw [classify_opImm (opcodeOf_eq_iff.mpr hop), funct3Of_eq_iff.mpr hf, arithOf]

/-- The class depends on the opcode, funct3 and bit 30 alone (rule R70). -/
theorem classify_congr {w v : Word} (hop : opcodeOf w = opcodeOf v) (hf : funct3Of w = funct3Of v)
    (ha : arithOf w = arithOf v) : classify w = classify v := by
  rw [classify, classify, hop, hf, ha]

/-- Words that agree under a mask agree in every field the mask covers. -/
theorem extractLsb'_eq_of_and_eq {w v m : Word} {lo len : Nat} (hm : m.extractLsb' lo len = BitVec.allOnes len)
    (h : w &&& m = v &&& m) : w.extractLsb' lo len = v.extractLsb' lo len := by
  have hfield := congrArg (BitVec.extractLsb' lo len) h
  rwa [BitVec.extractLsb'_and, BitVec.extractLsb'_and, hm, BitVec.and_allOnes, BitVec.and_allOnes] at hfield

/-- The mask 0x4000707F covers every bit that takes part in classification. -/
theorem classify_eq_of_and_eq {w v : Word} (h : w &&& 0x4000707F#32 = v &&& 0x4000707F#32) :
    classify w = classify v := by
  have hbit30 : w.extractLsb' 30 1 = v.extractLsb' 30 1 := extractLsb'_eq_of_and_eq (by decide) h
  refine classify_congr (extractLsb'_eq_of_and_eq (by decide) h)
    (congrArg BitVec.toFin (extractLsb'_eq_of_and_eq (by decide) h)) ?_
  simpa [arithOf] using congrArg (BitVec.getLsbD · 0) hbit30

/-- Settles O2: the bits of a sign-extended field, and its signed value being the 12-bit field's. -/
theorem immediateIIsSignExtendedTopField : Obligations.ImmediateIIsSignExtendedTopField :=
  ⟨fun w _ hk => getLsbD_immI w hk,
   immI_bounds,
   fun _ hjalr => decodeWord_of_classify hjalr rfl,
   by decide⟩

/-- Settles O3: `imm_U` is a mask, and its signed value is that of the 20-bit field times 4096. -/
theorem immediateUIsUpperTwentyBits : Obligations.ImmediateUIsUpperTwentyBits :=
  ⟨immU_eq_and, fun v hv => ⟨v, immU_of_low_zero hv⟩, immU_bounds, by decide⟩

/-- Settles O4: the bits of the assembled offset, and its signed value being twice a 20-bit field's. -/
theorem immediateJIsTheScrambledOffset : Obligations.ImmediateJIsTheScrambledOffset := by
  refine ⟨fun w k hk => ?_, immJ_bounds, by decide, by decide⟩
  simp only [Nat.le_iff_lt_add_one, Nat.reduceAdd]
  exact getLsbD_immJ w hk

/-- Settles O5: bit 30 is the `arith` input of the funct3 = 5 row of the classification. -/
theorem bitThirtySelectsTheRightShift : Obligations.BitThirtySelectsTheRightShift := by
  refine fun w => ⟨⟨testBit_funct7Of w (by decide), testBit_funct7Of w (by decide)⟩, fun hop hf => ?_⟩
  have hclass : classify w = if w.getLsbD 30 then .srai else .srli := by rw [classify_opImm hop, hf]; rfl
  constructor
  · intro hclear
    exact decodeWord_of_classify (hclass.trans (by rw [hclear])) rfl
  · intro hset
    exact decodeWord_of_classify (hclass.trans (by rw [hset])) rfl

/-- Settles O6: `classify` by the numbers of its fields, row by row, and the mask of the bits it reads. -/
theorem classificationFollowsOpcodeAndFunct3 : Obligations.ClassificationFollowsOpcodeAndFunct3 := by
  refine ⟨fun w hop =>
      ⟨classify_opImm_of_toNat hop (f := 0), classify_opImm_of_toNat hop (f := 1), classify_opImm_of_toNat hop (f := 2),
       classify_opImm_of_toNat hop (f := 3), classify_opImm_of_toNat hop (f := 4), classify_opImm_of_toNat hop (f := 5),
       classify_opImm_of_toNat hop (f := 6), classify_opImm_of_toNat hop (f := 7)⟩,
    fun w hop => classify_lui (opcodeOf_eq_iff.mpr hop),
    fun w hop => classify_auipc (opcodeOf_eq_iff.mpr hop),
    fun w hop => classify_jal (opcodeOf_eq_iff.mpr hop),
    fun w hop => ?_,
    fun w h13 h37 h17 h6F h67 => classify_other (mt opcodeOf_eq_iff.mp h13) (mt opcodeOf_eq_iff.mp h37)
      (mt opcodeOf_eq_iff.mp h17) (mt opcodeOf_eq_iff.mp h6F) (mt opcodeOf_eq_iff.mp h67),
    fun w v h => classify_eq_of_and_eq h⟩
  simp only [classify_jalr (opcodeOf_eq_iff.mpr hop), funct3Of_eq_iff, Fin.val_zero]

end Sys2Proof.Machine

namespace Sys2Proof.Machine

/-! ### Proofs of 41_op_imm.md: the register-immediate instructions other than the shifts (R111, R113 to R115, R118, R119) -/

/-- Every instruction completes from every state, and commits its result and its next PC through the x0 rule. -/
theorem completesWith (i : Instr) (s : State) : CompletesWith i s i.rd (resultOf i s) (nextPcOf i s) :=
  ⟨_, exec_eq_commit i s, commits_commit s i.rd (resultOf i s) (nextPcOf i s)⟩

/-- A row whose words are all of one class decodes to the instruction the record gives for that class. -/
theorem decodesRow_of_classify {mask row : Word} {c : InstrClass} {mk : Word → Instr}
    (hclass : ∀ w, w &&& mask = row → classify w = c)
    (hmk : ∀ w, { extract w with cls := c }.instr? = some (mk w)) : DecodesRow mask row mk :=
  fun w hw => decodeWord_of_classify (hclass w hw) (hmk w)

/-- A word of a row under the mask 0x707F has the row's opcode and funct3, so under opcode 0x13 these settle its class up to
bit 30. -/
theorem classify_opImm_of_row {w row : Word} (hrow : row &&& 0x0000707F#32 = row) (hop : opcodeOf row = 0x13#7)
    (hw : w &&& 0x0000707F#32 = row) : classify w = opImmClass (funct3Of row) (arithOf w) := by
  have hagree : w &&& 0x0000707F#32 = row &&& 0x0000707F#32 := hw.trans hrow.symm
  have hopcode : opcodeOf w = opcodeOf row := extractLsb'_eq_of_and_eq (by decide) hagree
  have hfunct3 : funct3Of w = funct3Of row := congrArg BitVec.toFin (extractLsb'_eq_of_and_eq (by decide) hagree)
  rw [classify_opImm (hopcode.trans hop), hfunct3]

/-- A row under the mask 0x707F and opcode 0x13 whose class does not turn on bit 30 decodes as that class. -/
theorem decodesRow_opImm {row : Word} {c : InstrClass} {mk : Word → Instr} (hrow : row &&& 0x0000707F#32 = row)
    (hop : opcodeOf row = 0x13#7) (hc : ∀ a, opImmClass (funct3Of row) a = c)
    (hmk : ∀ w, { extract w with cls := c }.instr? = some (mk w)) : DecodesRow 0x0000707F#32 row mk :=
  decodesRow_of_classify (fun w hw => (classify_opImm_of_row hrow hop hw).trans (hc (arithOf w))) hmk

/-- Settles O23: the row of opcode 0x13 and funct3 0, and ADDI's one commit. -/
theorem addiAddsItsImmediate : Obligations.AddiAddsItsImmediate :=
  ⟨decodesRow_opImm (c := .addi) (by decide) (by decide) (by decide) (fun _ => rfl),
   fun rd rs1 imm s => completesWith (.addi rd rs1 imm) s,
   by decide⟩

/-- Settles O25: the row of opcode 0x13 and funct3 2, and SLTI's one commit, of the signed comparison. -/
theorem sltiComparesSigned : Obligations.SltiComparesSigned :=
  ⟨decodesRow_opImm (c := .slti) (by decide) (by decide) (by decide) (fun _ => rfl),
   fun rd rs1 imm s => completesWith (.slti rd rs1 imm) s,
   by decide⟩

/-- Settles O26: the row of opcode 0x13 and funct3 3, and SLTIU's one commit, of the unsigned comparison. -/
theorem sltiuComparesUnsigned : Obligations.SltiuComparesUnsigned :=
  ⟨decodesRow_opImm (c := .sltiu) (by decide) (by decide) (by decide) (fun _ => rfl),
   fun rd rs1 imm s => completesWith (.sltiu rd rs1 imm) s,
   by decide⟩

/-- Settles O27: the row of opcode 0x13 and funct3 4, and XORI's one commit. -/
theorem xoriXorsItsImmediate : Obligations.XoriXorsItsImmediate :=
  ⟨decodesRow_opImm (c := .xori) (by decide) (by decide) (by decide) (fun _ => rfl),
   fun rd rs1 imm s => completesWith (.xori rd rs1 imm) s,
   by decide⟩

/-- Settles O30: the row of opcode 0x13 and funct3 6, and ORI's one commit. -/
theorem oriOrsItsImmediate : Obligations.OriOrsItsImmediate :=
  ⟨decodesRow_opImm (c := .ori) (by decide) (by decide) (by decide) (fun _ => rfl),
   fun rd rs1 imm s => completesWith (.ori rd rs1 imm) s,
   by decide⟩

/-- Settles O31: the row of opcode 0x13 and funct3 7, and ANDI's one commit. -/
theorem andiAndsItsImmediate : Obligations.AndiAndsItsImmediate :=
  ⟨decodesRow_opImm (c := .andi) (by decide) (by decide) (by decide) (fun _ => rfl),
   fun rd rs1 imm s => completesWith (.andi rd rs1 imm) s,
   by decide⟩

end Sys2Proof.Machine

namespace Sys2Proof.Machine

/-! ### Proofs of 42_upper_immediate.md: the upper-immediate instructions (R131, R132) -/

/-- The mask 0x7F keeps the opcode. -/
theorem opcodeOf_and_mask (w : Word) : opcodeOf (w &&& 0x0000007F#32) = opcodeOf w :=
  extractLsb'_eq_of_and_eq (m := 0x0000007F#32) (by decide) (by rw [BitVec.and_assoc, BitVec.and_self])

/-- A row under the mask 0x7F whose opcode alone settles the class decodes as that class. -/
theorem decodesRow_of_opcode {row : Word} {op : BitVec 7} {c : InstrClass} {mk : Word → Instr}
    (hop : opcodeOf row = op) (hc : ∀ {w}, opcodeOf w = op → classify w = c)
    (hmk : ∀ w, { extract w with cls := c }.instr? = some (mk w)) : DecodesRow 0x0000007F#32 row mk := by
  refine decodesRow_of_classify (fun w hw => hc ?_) hmk
  rw [← opcodeOf_and_mask, hw, hop]

/-- Settles O32: the row of opcode 0x37, and LUI's one commit, of the immediate alone. -/
theorem luiLoadsItsImmediate : Obligations.LuiLoadsItsImmediate :=
  ⟨decodesRow_of_opcode (by decide) classify_lui (fun _ => rfl),
   fun rd imm s => completesWith (.lui rd imm) s,
   by decide⟩

/-- Settles O33: the row of opcode 0x17, and AUIPC's one commit, of its own PC plus the immediate. -/
theorem auipcAddsItsImmediateToThePc : Obligations.AuipcAddsItsImmediateToThePc :=
  ⟨decodesRow_of_opcode (by decide) classify_auipc (fun _ => rfl),
   fun rd imm s => completesWith (.auipc rd imm) s,
   by decide⟩

end Sys2Proof.Machine

namespace Sys2Proof.Machine

/-! ### The fields a class fixes (30_encoding.md section 2, R70) -/

/-- The opcode of rule R70's table for a class; ILLEGAL has none. -/
def classOpcode : InstrClass → Option (BitVec 7)
  | .addi | .slli | .slti | .sltiu | .xori | .srli | .srai | .ori | .andi => some 0x13#7
  | .lui => some 0x37#7
  | .auipc => some 0x17#7
  | .jal => some 0x6F#7
  | .jalr => some 0x67#7
  | .illegal => none

/-- The funct3 of rule R70's table for a class, where its row names one. -/
def classFunct3 : InstrClass → Option (Fin 8)
  | .addi | .jalr => some 0
  | .slli => some 1
  | .slti => some 2
  | .sltiu => some 3
  | .xori => some 4
  | .srli | .srai => some 5
  | .ori => some 6
  | .andi => some 7
  | .lui | .auipc | .jal | .illegal => none

/-- Rule R70's table read off `classify`: the rows, and the two ways to be ILLEGAL. -/
theorem classify_cases (w : Word) :
    (opcodeOf w = 0x13#7 ∧ classify w = opImmClass (funct3Of w) (arithOf w)) ∨
    (opcodeOf w = 0x37#7 ∧ classify w = .lui) ∨ (opcodeOf w = 0x17#7 ∧ classify w = .auipc) ∨
    (opcodeOf w = 0x6F#7 ∧ classify w = .jal) ∨ (opcodeOf w = 0x67#7 ∧ funct3Of w = 0 ∧ classify w = .jalr) ∨
    (classify w = .illegal ∧ ((opcodeOf w ≠ 0x13#7 ∧ opcodeOf w ≠ 0x37#7 ∧ opcodeOf w ≠ 0x17#7 ∧
      opcodeOf w ≠ 0x6F#7 ∧ opcodeOf w ≠ 0x67#7) ∨ (opcodeOf w = 0x67#7 ∧ funct3Of w ≠ 0))) := by
  by_cases h13 : opcodeOf w = 0x13#7
  · exact .inl ⟨h13, classify_opImm h13⟩
  by_cases h37 : opcodeOf w = 0x37#7
  · exact .inr (.inl ⟨h37, classify_lui h37⟩)
  by_cases h17 : opcodeOf w = 0x17#7
  · exact .inr (.inr (.inl ⟨h17, classify_auipc h17⟩))
  by_cases h6F : opcodeOf w = 0x6F#7
  · exact .inr (.inr (.inr (.inl ⟨h6F, classify_jal h6F⟩)))
  refine .inr (.inr (.inr (.inr ?_)))
  by_cases h67 : opcodeOf w = 0x67#7
  · by_cases hf : funct3Of w = 0
    · exact .inl ⟨h67, hf, (classify_jalr h67).trans (if_pos hf)⟩
    · exact .inr ⟨(classify_jalr h67).trans (if_neg hf), .inr ⟨h67, hf⟩⟩
  · exact .inr ⟨classify_other h13 h37 h17 h6F h67, .inl ⟨h13, h37, h17, h6F, h67⟩⟩

theorem classOpcode_opImmClass : ∀ f a, classOpcode (opImmClass f a) = some 0x13#7 := by decide

theorem classFunct3_opImmClass : ∀ f a, classFunct3 (opImmClass f a) = some f := by decide

theorem arith_of_opImmClass :
    ∀ a f b, opImmClass f b = (if a then InstrClass.srai else .srli) → b = a := by decide

/-- A word has the opcode of its class. -/
theorem opcodeOf_of_classify {w : Word} {c : InstrClass} {op : BitVec 7} (hw : classify w = c)
    (h : classOpcode c = some op) : opcodeOf w = op := by
  subst hw
  obtain ⟨hop, hc⟩ | ⟨hop, hc⟩ | ⟨hop, hc⟩ | ⟨hop, hc⟩ | ⟨hop, -, hc⟩ | ⟨hc, -⟩ := classify_cases w <;> rw [hc] at h
  · rw [classOpcode_opImmClass] at h
    exact hop.trans (Option.some.inj h)
  · exact hop.trans (Option.some.inj h)
  · exact hop.trans (Option.some.inj h)
  · exact hop.trans (Option.some.inj h)
  · exact hop.trans (Option.some.inj h)
  · exact nomatch h

/-- A word has the funct3 of its class, where the class fixes one. -/
theorem funct3Of_of_classify {w : Word} {c : InstrClass} {f : Fin 8} (hw : classify w = c)
    (h : classFunct3 c = some f) : funct3Of w = f := by
  subst hw
  obtain ⟨-, hc⟩ | ⟨-, hc⟩ | ⟨-, hc⟩ | ⟨-, hc⟩ | ⟨-, hf, hc⟩ | ⟨hc, -⟩ := classify_cases w <;> rw [hc] at h
  · rw [classFunct3_opImmClass] at h
    exact Option.some.inj h
  · exact nomatch h
  · exact nomatch h
  · exact nomatch h
  · exact hf.trans (Option.some.inj h)
  · exact nomatch h

/-- Bit 30 tells SRAI from SRLI (rule R67). -/
theorem arithOf_of_classify {w : Word} {a : Bool} (h : classify w = if a then .srai else .srli) : arithOf w = a := by
  have hop : opcodeOf w = 0x13#7 := opcodeOf_of_classify h (by cases a <;> rfl)
  exact arith_of_opImmClass _ _ _ ((classify_opImm hop).symm.trans h)

/-! ### Masks -/

/-- Words that agree in a field agree under a mask inside the field. -/
theorem and_eq_of_extractLsb'_eq {w v m : Word} {lo len : Nat}
    (hm : ∀ k < 32, m.getLsbD k = true → lo ≤ k ∧ k < lo + len)
    (h : w.extractLsb' lo len = v.extractLsb' lo len) : w &&& m = v &&& m := by
  apply BitVec.eq_of_getLsbD_eq
  intro k hk
  rw [BitVec.getLsbD_and, BitVec.getLsbD_and]
  cases hmk : m.getLsbD k with
  | false => simp
  | true =>
    obtain ⟨hlo, hhi⟩ := hm k hk hmk
    have hbit := congrArg (BitVec.getLsbD · (k - lo)) h
    simpa [show k - lo < len by omega, show lo + (k - lo) = k by omega] using hbit

/-- Words with the same opcode agree under the mask 0x7F. -/
theorem and_opcodeMask_congr {w v : Word} (hop : opcodeOf w = opcodeOf v) : w &&& 0x0000007F#32 = v &&& 0x0000007F#32 :=
  and_eq_of_extractLsb'_eq (lo := 0) (len := 7) (by decide) hop

/-- Words with the same opcode and funct3 agree under the mask 0x707F. -/
theorem and_funct3Mask_congr {w v : Word} (hop : opcodeOf w = opcodeOf v) (hf : funct3Of w = funct3Of v) :
    w &&& 0x0000707F#32 = v &&& 0x0000707F#32 := by
  have hf' : w &&& 0x00007000#32 = v &&& 0x00007000#32 :=
    and_eq_of_extractLsb'_eq (lo := 12) (len := 3) (by decide) (BitVec.toFin_inj.mp hf)
  rw [show 0x0000707F#32 = 0x0000007F#32 ||| 0x00007000#32 by decide, BitVec.and_or_distrib_left,
    BitVec.and_or_distrib_left, and_opcodeMask_congr hop, hf']

/-- Words with the same opcode, funct3 and bit 30 agree under the mask 0x4000707F. -/
theorem and_arithMask_congr {w v : Word} (hop : opcodeOf w = opcodeOf v) (hf : funct3Of w = funct3Of v)
    (ha : arithOf w = arithOf v) : w &&& 0x4000707F#32 = v &&& 0x4000707F#32 := by
  have hbit30 : w.extractLsb' 30 1 = v.extractLsb' 30 1 :=
    BitVec.eq_of_getLsbD_eq fun k hk => by
      obtain rfl : k = 0 := by omega
      simpa [arithOf] using ha
  have ha' : w &&& 0x40000000#32 = v &&& 0x40000000#32 :=
    and_eq_of_extractLsb'_eq (lo := 30) (len := 1) (by decide) hbit30
  rw [show 0x4000707F#32 = 0x0000707F#32 ||| 0x40000000#32 by decide, BitVec.and_or_distrib_left,
    BitVec.and_or_distrib_left, and_funct3Mask_congr hop hf, ha']

/-! ### The rows of the opcode table -/

/-- A row under the mask 0x7F is its opcode. -/
theorem classify_iff_opcodeRow {row : Word} {op : BitVec 7} {c : InstrClass} (hrow : row &&& 0x0000007F#32 = row)
    (hop : opcodeOf row = op) (hcop : classOpcode c = some op) (hc : ∀ {w}, opcodeOf w = op → classify w = c) (w : Word) :
    classify w = c ↔ w &&& 0x0000007F#32 = row := by
  constructor
  · intro hw
    exact (and_opcodeMask_congr ((opcodeOf_of_classify hw hcop).trans hop.symm)).trans hrow
  · intro hw
    exact hc (by rw [← opcodeOf_and_mask, hw, hop])

/-- A row under the mask 0x707F and opcode 0x13 is its funct3, where the class does not turn on bit 30. -/
theorem classify_iff_opImmRow {row : Word} {c : InstrClass} (hrow : row &&& 0x0000707F#32 = row)
    (hop : opcodeOf row = 0x13#7) (hc : ∀ a, opImmClass (funct3Of row) a = c) (w : Word) :
    classify w = c ↔ w &&& 0x0000707F#32 = row := by
  constructor
  · intro hw
    rw [← hc false] at hw
    have hopcode : opcodeOf w = 0x13#7 := opcodeOf_of_classify hw (classOpcode_opImmClass _ _)
    have hfunct3 : funct3Of w = funct3Of row := funct3Of_of_classify hw (classFunct3_opImmClass _ _)
    exact (and_funct3Mask_congr (hopcode.trans hop.symm) hfunct3).trans hrow
  · intro hw
    rw [classify_opImm_of_row hrow hop hw, hc]

/-- The two rows under the mask 0x4000707F are told apart by bit 30. -/
theorem classify_iff_arithRow {row : Word} {a : Bool} (hrow : row &&& 0x4000707F#32 = row)
    (hop : opcodeOf row = 0x13#7) (hf : funct3Of row = 5) (ha : arithOf row = a) (w : Word) :
    classify w = (if a then .srai else .srli) ↔ w &&& 0x4000707F#32 = row := by
  constructor
  · intro hw
    have hopcode : opcodeOf w = 0x13#7 := opcodeOf_of_classify hw (by cases a <;> rfl)
    have hfunct3 : funct3Of w = 5 := funct3Of_of_classify hw (by cases a <;> rfl)
    exact (and_arithMask_congr (hopcode.trans hop.symm) (hfunct3.trans hf.symm)
      ((arithOf_of_classify hw).trans ha.symm)).trans hrow
  · intro hw
    rw [classify_eq_of_and_eq (hw.trans hrow.symm), classify_opImm hop, hf, ha]
    rfl

/-- The row of JALR fixes the opcode and funct3. -/
theorem classify_iff_jalrRow (w : Word) : classify w = .jalr ↔ w &&& 0x0000707F#32 = 0x00000067#32 := by
  constructor
  · intro hw
    have hopcode : opcodeOf w = 0x67#7 := opcodeOf_of_classify hw rfl
    have hfunct3 : funct3Of w = 0 := funct3Of_of_classify hw rfl
    exact and_funct3Mask_congr (v := 0x00000067#32) hopcode hfunct3
  · intro hw
    have hagree : w &&& 0x0000707F#32 = 0x00000067#32 &&& 0x0000707F#32 := hw
    have hopcode : opcodeOf w = 0x67#7 := extractLsb'_eq_of_and_eq (by decide) hagree
    have hfunct3 : funct3Of w = 0 := congrArg BitVec.toFin (extractLsb'_eq_of_and_eq (by decide) hagree)
    rw [classify_jalr hopcode, if_pos hfunct3]

/-- Every row of the opcode table is exactly its class. -/
theorem classify_iff_row : ∀ row ∈ opcodeTable, ∀ w : Word, classify w = row.1 ↔ w &&& row.2.1 = row.2.2 := by
  simp only [opcodeTable, List.forall_mem_cons]
  exact ⟨classify_iff_opImmRow (by decide) (by decide) (by decide),
    classify_iff_opImmRow (by decide) (by decide) (by decide),
    classify_iff_opImmRow (by decide) (by decide) (by decide),
    classify_iff_opImmRow (by decide) (by decide) (by decide),
    classify_iff_opImmRow (by decide) (by decide) (by decide),
    classify_iff_arithRow (a := false) (by decide) (by decide) (by decide) (by decide),
    classify_iff_arithRow (a := true) (by decide) (by decide) (by decide) (by decide),
    classify_iff_opImmRow (by decide) (by decide) (by decide),
    classify_iff_opImmRow (by decide) (by decide) (by decide),
    classify_iff_opcodeRow (by decide) (by decide) rfl classify_lui,
    classify_iff_opcodeRow (by decide) (by decide) rfl classify_auipc,
    classify_iff_opcodeRow (by decide) (by decide) rfl classify_jal,
    classify_iff_jalrRow,
    by simp⟩

/-- ILLEGAL is the one class without a row. -/
theorem eq_illegal_iff_no_row (c : InstrClass) : c = .illegal ↔ ∀ row ∈ opcodeTable, c ≠ row.1 := by
  cases c <;> decide

/-- Settles O7: row by row, and ILLEGAL being the class that no row has. -/
theorem classificationIsTheOpcodeTable : Obligations.ClassificationIsTheOpcodeTable :=
  ⟨classify_iff_row,
   fun w => (eq_illegal_iff_no_row (classify w)).trans
     (forall₂_congr fun row hrow => not_congr (classify_iff_row row hrow w))⟩

end Sys2Proof.Machine

namespace Sys2Proof.Machine

/-! ### The immediate encoders and extractors are inverse (30_encoding.md section 3, R77) -/

/-- A value that its low `n` bits hold as a signed number is the sign extension of those bits (rule R11). -/
theorem sext_low {n : Nat} (hn : n ≤ 32) {v : Word} (h : v.toInt.bmod (2 ^ n) = v.toInt) :
    sext n (v.extractLsb' 0 n) = v := by
  apply BitVec.eq_of_toInt_eq
  calc (sext n (v.extractLsb' 0 n)).toInt
    _ = (v.setWidth n).toInt := by rw [sext_toInt hn, BitVec.setWidth_eq_extractLsb' hn]
    _ = ((v.toNat : Int).bmod (2 ^ 32)).bmod (2 ^ n) := by
        rw [BitVec.toInt_setWidth, Int.bmod_bmod_of_dvd (Nat.pow_dvd_pow 2 hn)]
    _ = v.toInt := by rw [← BitVec.toInt_eq_toNat_bmod, h]

/-- Modulo a power of 2 below 2^32 the signed and the unsigned value agree. -/
theorem toInt_emod {m : Nat} (hm : m ∣ 2 ^ 32) (v : Word) : v.toInt % m = (v.toNat : Int) % m := by
  have hdvd : (m : Int) ∣ ((2 ^ 32 : Nat) : Int) := Int.natCast_dvd_natCast.mpr hm
  rw [BitVec.toInt_eq_toNat_bmod, ← Int.emod_emod_of_dvd _ hdvd, Int.bmod_emod, Int.emod_emod_of_dvd _ hdvd]

theorem immIFits_iff {v : Word} : immIFits v = true ↔ -2048 ≤ v.toInt ∧ v.toInt ≤ 2047 := by
  simp [immIFits]

theorem immUFits_iff {v : Word} : immUFits v = true ↔ v.toNat % 4096 = 0 := by
  simp [immUFits]

theorem immJFits_iff {v : Word} :
    immJFits v = true ↔ v.toInt % 2 = 0 ∧ -1048576 ≤ v.toInt ∧ v.toInt ≤ 1048574 := by
  simp [immJFits, and_assoc]

/-- The low part of a value that fits the I format is the value. -/
theorem loPart_of_immIFits {v : Word} (h : immIFits v = true) : loPart v = v := by
  obtain ⟨hlo, hhi⟩ := immIFits_iff.mp h
  exact sext_low (by decide) (Int.bmod_eq_of_le (by omega) (by omega))

/-- The bits of `sext_n` of the low `n` bits. -/
theorem getLsbD_sext_low {n : Nat} (hn : 0 < n) (v : Word) {k : Nat} (hk : k < 32) :
    (sext n (v.extractLsb' 0 n)).getLsbD k = if k < n then v.getLsbD k else v.getLsbD (n - 1) := by
  unfold sext
  rw [BitVec.getLsbD_signExtend, BitVec.msb_eq_getLsbD_last]
  by_cases h : k < n <;> simp [hk, h, hn]

/-- What `encI` writes, `imm_I` reads: the low 12 bits, sign-extended. -/
theorem immI_encI_eq_loPart (v w : Word) : immI (encI v w) = loPart v := by
  apply BitVec.eq_of_getLsbD_eq
  intro k hk
  rw [getLsbD_immI _ hk, loPart, getLsbD_sext_low (by decide) v hk, getLsbD_encI v w (k := 31) (by decide)]
  by_cases h : k < 12
  · rw [getLsbD_encI v w (by omega)]
    simp [h]
  · simp [h]

theorem immI_encI {v : Word} (h : immIFits v = true) (w : Word) : immI (encI v w) = v := by
  rw [immI_encI_eq_loPart, loPart_of_immIFits h]

theorem immU_encU {v : Word} (h : immUFits v = true) (w : Word) : immU (encU v w) = v := by
  have hlow : v &&& 0x00000FFF#32 = 0#32 :=
    BitVec.eq_of_toNat_eq ((Nat.and_two_pow_sub_one_eq_mod v.toNat 12).trans (immUFits_iff.mp h))
  refine Eq.trans ?_ (immU_of_low_zero hlow)
  apply BitVec.eq_of_getLsbD_eq
  intro k hk
  rw [getLsbD_immU _ hk, getLsbD_immU _ hk, getLsbD_encU v w hk]
  by_cases h12 : k < 12 <;> simp [h12]

theorem immJ_encJ {v : Word} (h : immJFits v = true) (w : Word) : immJ (encJ v w) = v := by
  obtain ⟨heven, hlo, hhi⟩ := immJFits_iff.mp h
  have hbit0 : v.getLsbD 0 = false := by
    have hmod := (toInt_emod (m := 2) (by decide) v).symm.trans heven
    rw [BitVec.getLsbD, Nat.testBit_zero, decide_eq_false_iff_not]
    omega
  refine Eq.trans ?_ (sext_low (n := 21) (by decide) (Int.bmod_eq_of_le (by omega) (by omega)))
  apply BitVec.eq_of_getLsbD_eq
  intro k hk
  rw [getLsbD_immJ _ hk, getLsbD_sext_low (by decide) v hk]
  obtain rfl | h | rfl | h | h : k = 0 ∨ (0 < k ∧ k < 11) ∨ k = 11 ∨ (11 < k ∧ k < 20) ∨ 20 ≤ k := by omega
  · rw [if_pos rfl, if_pos (by decide), hbit0]
  · rw [if_neg (by omega), if_pos h.2, if_pos (by omega), getLsbD_encJ v w (by omega)]
    grind
  · rw [if_neg (by decide), if_neg (by decide), if_pos rfl, if_pos (by decide), getLsbD_encJ v w (by decide)]
    rfl
  · rw [if_neg (by omega), if_neg (by omega), if_neg (by omega), if_pos h.2, if_pos (by omega), getLsbD_encJ v w hk]
    grind
  · rw [if_neg (by omega), if_neg (by omega), if_neg (by omega), if_neg (by omega), getLsbD_encJ v w (by decide)]
    grind

/-- Re-encoding the I-immediate of a word reproduces the word. -/
theorem encI_immI (w : Word) : encI (immI w) w = w := by
  apply BitVec.eq_of_getLsbD_eq
  intro k hk
  rw [getLsbD_encI _ _ hk]
  split
  · rfl
  · rw [getLsbD_immI _ (by omega), if_pos (by omega), Nat.add_sub_of_le (by omega)]

/-- Re-encoding the U-immediate of a word reproduces the word. -/
theorem encU_immU (w : Word) : encU (immU w) w = w := by
  apply BitVec.eq_of_getLsbD_eq
  intro k hk
  rw [getLsbD_encU _ _ hk]
  split
  · rfl
  · rw [getLsbD_immU _ hk, if_neg (by omega)]

/-- Re-encoding the J-immediate of a word reproduces the word. -/
theorem encJ_immJ (w : Word) : encJ (immJ w) w = w := by
  apply BitVec.eq_of_getLsbD_eq
  intro k hk
  rw [getLsbD_encJ _ _ hk]
  split_ifs with h12 h20 h
  · rfl
  · rw [getLsbD_immJ _ hk]
    grind
  · rw [getLsbD_immJ _ (by decide), h]
    rfl
  · rw [getLsbD_immJ _ (by omega)]
    grind
  · rw [getLsbD_immJ _ (by decide), show k = 31 by omega]
    rfl

/-- Settles O11: bit by bit, and for the domains by the signed value of the low bits. -/
theorem immediateEncodersRoundTrip : Obligations.ImmediateEncodersRoundTrip :=
  ⟨fun _ w hv => immI_encI hv w,
   fun _ w hv => immU_encU hv w,
   fun _ w hv => immJ_encJ hv w,
   fun w => ⟨encI_immI w, encU_immU w, encJ_immJ w⟩,
   fun v w =>
    ⟨and_eq_of_extractLsb'_eq (lo := 0) (len := 20) (by decide) (low_encI v w (by decide)),
     and_eq_of_extractLsb'_eq (lo := 0) (len := 12) (by decide) (low_encU v w (by decide)),
     and_eq_of_extractLsb'_eq (lo := 0) (len := 12) (by decide) (low_encJ v w (by decide))⟩⟩

/-! ### Decoding an encoded instruction -/

/-- The encoder's word is of the instruction's class. -/
theorem classify_encode (i : Instr) : classify (encode i) = i.cls := by
  cases i with
  | addi => exact Laws.EncodedClass.addi _ _ _
  | slli => exact Laws.EncodedClass.slli _ _ _
  | slti => exact Laws.EncodedClass.slti _ _ _
  | sltiu => exact Laws.EncodedClass.sltiu _ _ _
  | xori => exact Laws.EncodedClass.xori _ _ _
  | srli => exact Laws.EncodedClass.srli _ _ _
  | srai => exact Laws.EncodedClass.srai _ _ _
  | ori => exact Laws.EncodedClass.ori _ _ _
  | andi => exact Laws.EncodedClass.andi _ _ _
  | lui => exact Laws.EncodedClass.lui _ _
  | auipc => exact Laws.EncodedClass.auipc _ _
  | jal => exact Laws.EncodedClass.jal _ _
  | jalr => exact Laws.EncodedClass.jalr _ _ _

@[simp] theorem shamtOf_encShift (a : Bool) (n : Shamt) (inst : Word) : shamtOf (encShift a n inst) = n := by
  have hfield : (encShift a n inst).extractLsb' 20 5 = BitVec.ofNat 5 n.val := by
    apply BitVec.eq_of_getLsbD_eq
    intro k hk
    rw [BitVec.getLsbD_extractLsb', getLsbD_encShift _ _ _ (by omega)]
    simp [hk, show 20 + k < 25 by omega]
  rw [shamtOf, hfield]
  exact toFin_ofNat_reg n

/-- Settles O12: the encoded word has the instruction's class, and each field of that class reads back its operand. -/
theorem decodeOfEncodeIsTheInstruction : Obligations.DecodeOfEncodeIsTheInstruction := by
  intro i hwf
  refine decodeWord_of_classify (classify_encode i) ?_
  cases i with
  | addi | slti | sltiu | xori | ori | andi | jalr =>
    simp [Decoded.instr?, extract, encode, Instr.cls, immI_encI hwf]
  | slli | srli | srai => simp [Decoded.instr?, extract, encode, Instr.cls]
  | lui | auipc => simp [Decoded.instr?, extract, encode, Instr.cls, immU_encU hwf]
  | jal => simp [Decoded.instr?, extract, encode, Instr.cls, immJ_encJ hwf]

/-! ### Encoding a decoded word -/

/-- The bits of a register field. -/
theorem testBit_regField (w : Word) (lo : Nat) {j : Nat} (hj : j < 5) :
    (w.extractLsb' lo 5).toFin.val.testBit j = w.getLsbD (lo + j) :=
  (BitVec.testBit_toNat (w.extractLsb' lo 5)).trans (by simp [hj])

/-- The I-type layout of a word's own fields is the word below the immediate. -/
theorem layoutI_fields {w : Word} {op : BitVec 7} {f : BitVec 3} (hop : opcodeOf w = op) (hf : funct3Of w = f.toFin) :
    (layoutI op f (rdOf w) (rs1Of w)).extractLsb' 0 20 = w.extractLsb' 0 20 := by
  obtain rfl : w.extractLsb' 12 3 = f := BitVec.toFin_inj.mp hf
  subst hop
  apply BitVec.eq_of_getLsbD_eq
  intro k hk
  simp only [BitVec.getLsbD_extractLsb', hk, Nat.zero_add, getLsbD_layoutI _ _ _ _ hk]
  split_ifs with h7 h12 h15
  · simp [opcodeOf, h7]
  · rw [rdOf, testBit_regField _ _ (by omega), Nat.add_sub_of_le (by omega)]
  · simp [show k - 12 < 3 by omega, Nat.add_sub_of_le (show 12 ≤ k by omega)]
  · rw [rs1Of, testBit_regField _ _ (by omega), Nat.add_sub_of_le (by omega)]

/-- The U-type layout of a word's own fields is the word below the immediate. -/
theorem layoutU_fields {w : Word} {op : BitVec 7} (hop : opcodeOf w = op) :
    (layoutU op (rdOf w)).extractLsb' 0 12 = w.extractLsb' 0 12 := by
  subst hop
  apply BitVec.eq_of_getLsbD_eq
  intro k hk
  simp only [BitVec.getLsbD_extractLsb', hk, Nat.zero_add, getLsbD_layoutU _ _ hk]
  split_ifs with h7
  · simp [opcodeOf, h7]
  · rw [rdOf, testBit_regField _ _ (by omega), Nat.add_sub_of_le (by omega)]

theorem encI_fields {w : Word} {op : BitVec 7} {f : BitVec 3} (hop : opcodeOf w = op) (hf : funct3Of w = f.toFin) :
    encI (immI w) (layoutI op f (rdOf w) (rs1Of w)) = w := by
  rw [encI, layoutI_fields hop hf, ← encI, encI_immI]

theorem encU_fields {w : Word} {op : BitVec 7} (hop : opcodeOf w = op) : encU (immU w) (layoutU op (rdOf w)) = w := by
  rw [encU, layoutU_fields hop, ← encU, encU_immU]

theorem encJ_fields {w : Word} {op : BitVec 7} (hop : opcodeOf w = op) : encJ (immJ w) (layoutU op (rdOf w)) = w := by
  rw [encJ, layoutU_fields hop, ← encJ, encJ_immJ]

/-- Re-encoding a shift keeps bits 24 to 0 and the select in bit 30, where the class reads it, and clears the rest. -/
theorem encShift_fields {w m : Word} {a : Bool} {op : BitVec 7} {f : BitVec 3} (hop : opcodeOf w = op)
    (hf : funct3Of w = f.toFin) (hm : ∀ k < 32, k ≠ 30 → m.getLsbD k = decide (k < 25))
    (ha : (arithOf w && m.getLsbD 30) = a) :
    encShift a (shamtOf w) (layoutI op f (rdOf w) (rs1Of w)) = w &&& m := by
  rw [encShift, layoutI_fields hop hf, ← encShift]
  apply BitVec.eq_of_getLsbD_eq
  intro k hk
  rw [getLsbD_encShift _ _ _ hk, BitVec.getLsbD_and]
  split_ifs with h20 h25 h30
  · rw [hm k hk (by omega)]
    simp [show k < 25 by omega]
  · rw [hm k hk (by omega), shamtOf, testBit_regField _ _ (by omega), Nat.add_sub_of_le (by omega)]
    simp [h25]
  · rw [← ha, h30, arithOf]
  · rw [hm k hk h30]
    simp [h25]

theorem immIFits_immI (w : Word) : immIFits (immI w) = true := immIFits_iff.mpr (immI_bounds w)

theorem immJFits_immJ (w : Word) : immJFits (immJ w) = true := immJFits_iff.mpr (immJ_bounds w)

theorem immUFits_immU (w : Word) : immUFits (immU w) = true := by
  have hmod := (toInt_emod (m := 4096) (by decide) (immU w)).symm.trans (immU_bounds w).1
  exact immUFits_iff.mpr (by omega)

/-- What a word of a known class decodes to, from its record. -/
theorem eq_of_decodeWord {w : Word} {c : InstrClass} {i j : Instr} (hi : decodeWord w = .ok i) (hc : classify w = c)
    (hj : { extract w with cls := c }.instr? = some j) : i = j :=
  Except.ok.inj (hi.symm.trans (decodeWord_of_classify hc hj))

/-- Settles O13: by the class of the word, which fixes the opcode, funct3 and select that the encoder writes. -/
theorem encodeOfDecodeIsTheWordReadBits : Obligations.EncodeOfDecodeIsTheWordReadBits := by
  intro w i hi
  cases hc : classify w with
  | addi | slti | sltiu | xori | ori | andi | jalr =>
    obtain rfl := eq_of_decodeWord hi hc rfl
    have hencode := encI_fields (opcodeOf_of_classify hc rfl) (funct3Of_of_classify hc rfl)
    exact ⟨immIFits_immI w, rfl, hencode.trans BitVec.and_allOnes.symm⟩
  | slli =>
    obtain rfl := eq_of_decodeWord hi hc rfl
    exact ⟨rfl, rfl, encShift_fields (opcodeOf_of_classify hc rfl) (funct3Of_of_classify hc rfl) (by decide)
      (Bool.and_false _)⟩
  | srli =>
    obtain rfl := eq_of_decodeWord hi hc rfl
    exact ⟨rfl, rfl, encShift_fields (opcodeOf_of_classify hc rfl) (funct3Of_of_classify hc rfl) (by decide)
      (by rw [arithOf_of_classify (a := false) hc]; rfl)⟩
  | srai =>
    obtain rfl := eq_of_decodeWord hi hc rfl
    exact ⟨rfl, rfl, encShift_fields (opcodeOf_of_classify hc rfl) (funct3Of_of_classify hc rfl) (by decide)
      (by rw [arithOf_of_classify (a := true) hc]; rfl)⟩
  | lui | auipc =>
    obtain rfl := eq_of_decodeWord hi hc rfl
    exact ⟨immUFits_immU w, rfl, (encU_fields (opcodeOf_of_classify hc rfl)).trans BitVec.and_allOnes.symm⟩
  | jal =>
    obtain rfl := eq_of_decodeWord hi hc rfl
    exact ⟨immJFits_immJ w, rfl, (encJ_fields (opcodeOf_of_classify hc rfl)).trans BitVec.and_allOnes.symm⟩
  | illegal => exact nomatch hi.symm.trans (decodeWord_eq_error.mpr ⟨instr?_eq_none.mpr hc, rfl⟩)

/-! ### The bits a class reads (30_encoding.md section 2, D10) -/

/-- Words that agree under a mask agree under a smaller one. -/
theorem and_eq_of_and_eq_of_subset {w v m m' : Word} (hm : m &&& m' = m') (h : w &&& m = v &&& m) :
    w &&& m' = v &&& m' := by
  rw [← hm, ← BitVec.and_assoc, ← BitVec.and_assoc, h]

/-- A class reads every bit of its row's mask. -/
theorem rowMask_subset_readMask : ∀ row ∈ opcodeTable, row.1.readMask &&& row.2.1 = row.2.1 := by decide

/-- A word that agrees in the bits read has the same class. -/
theorem classify_congr_of_readMask {w v : Word} (hc : classify w ≠ .illegal)
    (h : w &&& (classify w).readMask = v &&& (classify w).readMask) : classify v = classify w := by
  obtain ⟨row, hrow, hw⟩ : ∃ row ∈ opcodeTable, classify w = row.1 := by
    simpa using mt (eq_illegal_iff_no_row (classify w)).mpr hc
  have hmask : w &&& row.2.1 = v &&& row.2.1 :=
    and_eq_of_and_eq_of_subset (rowMask_subset_readMask row hrow) (hw ▸ h)
  rw [hw, classify_iff_row row hrow, ← hmask, ← classify_iff_row row hrow, hw]

/-- Every class reads all bits, or is a shift, whose operand fields lie in bits 24 to 0. -/
theorem readMask_cases (c : InstrClass) :
    c.readMask = BitVec.allOnes 32 ∨ ((c = .slli ∨ c = .srli ∨ c = .srai) ∧ c.readMask &&& 0x01FFFFFF#32 = 0x01FFFFFF#32) := by
  cases c <;> decide

/-- Settles O9: the class depends on read bits, and so do the operand fields of the shifts. -/
theorem uncheckedBitsDoNotChangeTheInstruction : Obligations.UncheckedBitsDoNotChangeTheInstruction := by
  intro w v hc h
  have hclass : classify v = classify w := classify_congr_of_readMask hc h
  obtain hall | ⟨hshift, hlow⟩ := readMask_cases (classify w)
  · rw [hall, BitVec.and_allOnes, BitVec.and_allOnes] at h
    rw [h]
  have hfield {lo : Nat} (hm : (0x01FFFFFF#32).extractLsb' lo 5 = BitVec.allOnes 5) :
      (w.extractLsb' lo 5).toFin = (v.extractLsb' lo 5).toFin :=
    congrArg BitVec.toFin (extractLsb'_eq_of_and_eq hm (and_eq_of_and_eq_of_subset hlow h))
  have hrd : rdOf w = rdOf v := hfield (by decide)
  have hrs1 : rs1Of w = rs1Of v := hfield (by decide)
  have hshamt : shamtOf w = shamtOf v := hfield (by decide)
  obtain hw | hw | hw := hshift
  all_goals
    rw [decodeWord_of_classify hw rfl, decodeWord_of_classify (hclass.trans hw) rfl]
    simp only [extract, hrd, hrs1, hshamt]

/-- Which words are ILLEGAL, by their opcode and funct3. -/
theorem classify_eq_illegal_iff (w : Word) :
    classify w = .illegal ↔
      (opcodeOf w ≠ 0x13#7 ∧ opcodeOf w ≠ 0x37#7 ∧ opcodeOf w ≠ 0x17#7 ∧ opcodeOf w ≠ 0x6F#7 ∧ opcodeOf w ≠ 0x67#7) ∨
      (opcodeOf w = 0x67#7 ∧ funct3Of w ≠ 0) := by
  have hOpImm : ∀ f a, opImmClass f a ≠ .illegal := by decide
  obtain ⟨hop, hc⟩ | ⟨hop, hc⟩ | ⟨hop, hc⟩ | ⟨hop, hc⟩ | ⟨hop, hf, hc⟩ | ⟨hc, hcond⟩ := classify_cases w
  · simp [hop, hc, hOpImm]
  · simp [hop, hc]
  · simp [hop, hc]
  · simp [hop, hc]
  · simp [hop, hc, hf]
  · exact iff_of_true hc hcond

theorem execute_of_decode {w : Word} {i : Instr} (h : decodeWord w = .ok i) (s : State) : execute w s = exec i s := by
  simp [execute, h]

theorem execute_of_illegal {w : Word} (h : classify w = .illegal) (s : State) :
    execute w s = .next (s.raise (.illegalInstruction w)) := by
  simp [execute, decodeWord_eq_error.mpr ⟨instr?_eq_none.mpr h, rfl⟩]

/-- An instruction raises nothing (rules R110, R130, R140). -/
theorem exec_ne_raise {s : State} (hs : s.status = .running) (i : Instr) (f : Fault) : exec i s ≠ .next (s.raise f) := by
  intro h
  have hstatus := congrArg State.status (exec_next h)
  rw [raise_status, commit_status, hs] at hstatus
  exact nomatch hstatus

/-- Settles O8: the ILLEGAL rows of the classification by number, and `execute` on words of either kind. -/
theorem illegalWordsAreExactlyTheUnhandledOnes : Obligations.IllegalWordsAreExactlyTheUnhandledOnes := by
  have hiff (w : Word) := classify_eq_illegal_iff w
  simp only [ne_eq, opcodeOf_eq_iff, funct3Of_eq_iff] at hiff
  refine ⟨hiff, fun w s hs => ⟨fun h => ?_, fun h => execute_of_illegal h s⟩, by decide, by decide, fun w hw => ?_⟩
  · obtain ⟨i, hi, -⟩ | ⟨-, hc⟩ := decodeWord_cases w
    · exact absurd ((execute_of_decode hi s).symm.trans h) (exec_ne_raise hs i _)
    · exact hc
  · refine (hiff w).mpr (.inl ?_)
    simp only [BitVec.reduceToNat]
    omega

/-! ### The fields by number, and the spec's words -/

/-- A field of a word as a number (rule R61). -/
theorem field_toNat (w : Word) (lo len : Nat) : (w.extractLsb' lo len).toNat = w.toNat / 2 ^ lo % 2 ^ len := by
  rw [BitVec.extractLsb'_toNat, Nat.shiftRight_eq_div_pow]

/-- Settles O1: each field is the number at its position. -/
theorem decoderExtractsEveryFieldOfEveryWord : Obligations.DecoderExtractsEveryFieldOfEveryWord :=
  fun w => ⟨opcodeOf_toNat w, rfl, field_toNat w 7 5, field_toNat w 12 3, field_toNat w 15 5, field_toNat w 20 5,
    field_toNat w 25 7⟩

/-- Settles O10: the decoder runs on each word. -/
theorem specWordsDecodeToTheirInstructions : Obligations.SpecWordsDecodeToTheirInstructions := by
  unfold Obligations.SpecWordsDecodeToTheirInstructions
  decide

end Sys2Proof.Machine

namespace Sys2Proof.Machine

/-! ### Proofs about one instruction: its frame, its inputs and its row (10_state.md, 41_op_imm.md to 43_control_transfer.md) -/

/-- Settles O36: an instruction is one commit, whose frame `Commits` states. -/
theorem everyInstructionChangesOnlyDestinationAndPc : Obligations.EveryInstructionChangesOnlyDestinationAndPc := by
  intro i s t h
  rw [exec_next h]
  obtain ⟨-, hothers, -, hbytes, hmem, hconfig, hstatus⟩ := commits_commit s i.rd (resultOf i s) (nextPcOf i s)
  exact ⟨hothers, hbytes, hmem, hconfig, hstatus, readReg_zero _⟩

/-- The result is a function of the PC and the source register. -/
theorem resultOf_congr {i : Instr} {s s' : State} (hpc : s.pc = s'.pc)
    (hsrc : ∀ r, i.source = some r → s.readReg r = s'.readReg r) : resultOf i s = resultOf i s' := by
  cases i with
  | lui | auipc | jal | jalr => simp only [resultOf, hpc]
  | addi _ rs1 | slli _ rs1 | slti _ rs1 | sltiu _ rs1 | xori _ rs1 | srli _ rs1 | srai _ rs1 | ori _ rs1
  | andi _ rs1 => simp only [resultOf, hsrc rs1 rfl]

/-- The next PC is a function of the PC and the source register. -/
theorem nextPcOf_congr {i : Instr} {s s' : State} (hpc : s.pc = s'.pc)
    (hsrc : ∀ r, i.source = some r → s.readReg r = s'.readReg r) : nextPcOf i s = nextPcOf i s' := by
  cases i with
  | jalr _ rs1 => simp only [nextPcOf, hsrc rs1 rfl]
  | _ => simp only [nextPcOf, hpc]

/-- Settles O15: both states commit, and what they commit is a function of the PC and the source register. -/
theorem resultDependsOnlyOnSourceRegisterAndPc : Obligations.ResultDependsOnlyOnSourceRegisterAndPc := by
  intro i s s' hpc hsrc
  refine ⟨_, _, exec_eq_commit i s, exec_eq_commit i s', ?_, nextPcOf_congr hpc hsrc⟩
  rw [commit_readReg_same, commit_readReg_same, resultOf_congr hpc hsrc]

/-- An instruction that is no jump goes on at `pc + 4`. -/
theorem nextPcOf_of_not_isJump {i : Instr} (h : ¬ IsJump i) (s : State) : nextPcOf i s = seqPc s.pc := by
  cases i with
  | jal | jalr => exact absurd trivial h
  | _ => rfl

/-- Settles O37: every instruction commits, and only a jump commits another PC than the sequential one. -/
theorem everyInstructionCompletesAndOnlyJumpsRedirect : Obligations.EveryInstructionCompletesAndOnlyJumpsRedirect :=
  fun i s => ⟨_, exec_eq_commit i s, fun hpc => by_contra fun hjump => hpc (nextPcOf_of_not_isJump hjump s)⟩

/-- A commit to x0 writes the PC alone. -/
@[simp] theorem commit_zero (s : State) (v p : Word) : s.commit 0 v p = s.setPc p := rfl

/-- Settles O38: a commit to x0 is a PC write. -/
theorem zeroDestinationDiscardsTheResult : Obligations.ZeroDestinationDiscardsTheResult :=
  ⟨fun i s hrd => ⟨_, exec_eq_commit i s, by rw [hrd, commit_zero, setPc_regs]⟩,
   fun s => exec_eq_commit (.addi 0 0 0#32) s⟩

/-- A row of the opcode table decodes to the instruction the record gives for the row's class. -/
theorem decodesRow_of_mem {row : InstrClass × Word × Word} (hrow : row ∈ opcodeTable) {mk : Word → Instr}
    (hmk : ∀ w, { extract w with cls := row.1 }.instr? = some (mk w)) : DecodesRow row.2.1 row.2.2 mk :=
  decodesRow_of_classify (fun w => (classify_iff_row row hrow w).mpr) hmk

/-- Settles O24: the row of SLLI, and its one commit. -/
theorem slliShiftsLeft : Obligations.SlliShiftsLeft :=
  ⟨decodesRow_of_mem (row := (.slli, _, _)) (by decide) (fun _ => rfl),
   fun rd rs1 n s => completesWith (.slli rd rs1 n) s⟩

/-- Settles O28: the row of SRLI, and its one commit. -/
theorem srliShiftsRightLogical : Obligations.SrliShiftsRightLogical :=
  ⟨decodesRow_of_mem (row := (.srli, _, _)) (by decide) (fun _ => rfl),
   fun rd rs1 n s => completesWith (.srli rd rs1 n) s⟩

/-- Settles O29: the row of SRAI, and its one commit. -/
theorem sraiShiftsRightArithmetic : Obligations.SraiShiftsRightArithmetic :=
  ⟨decodesRow_of_mem (row := (.srai, _, _)) (by decide) (fun _ => rfl),
   fun rd rs1 n s => completesWith (.srai rd rs1 n) s⟩

/-- Settles O34: the row of JAL, and its one commit, of the link and the target. -/
theorem jalLinksAndJumps : Obligations.JalLinksAndJumps :=
  ⟨decodesRow_of_mem (row := (.jal, _, _)) (by decide) (fun _ => rfl),
   fun rd offset s => completesWith (.jal rd offset) s⟩

/-- Clearing bit 0 is rounding down to an even number (90_conflicts.md C4). -/
theorem toNat_and_clearBit0 (v : Word) : (v &&& 0xFFFFFFFE#32).toNat = v.toNat - v.toNat % 2 := by
  rw [show 0xFFFFFFFE#32 = BitVec.allOnes 32 <<< 1 by decide, ← BitVec.shiftLeft_ushiftRight, BitVec.toNat_shiftLeft,
    BitVec.toNat_ushiftRight, Nat.shiftRight_eq_div_pow, Nat.shiftLeft_eq]
  omega

/-- Clearing bit 0 leaves an even value alone. -/
theorem and_clearBit0_of_even {v : Word} (h : v.toNat % 2 = 0) : v &&& 0xFFFFFFFE#32 = v :=
  BitVec.eq_of_toNat_eq (by rw [toNat_and_clearBit0, h, Nat.sub_zero])

/-- The target of JALR by arithmetic. -/
theorem jalrTarget_eq (base imm : Word) :
    jalrTarget base imm = BitVec.ofNat 32 ((base + imm).toNat - (base + imm).toNat % 2) := by
  rw [← toNat_and_clearBit0, BitVec.ofNat_toNat, BitVec.setWidth_eq, jalrTarget]

/-- Settles O35: the row of JALR, and its one commit, of the link and the target from the old source. -/
theorem jalrLinksAndJumpsToRegister : Obligations.JalrLinksAndJumpsToRegister := by
  refine ⟨decodesRow_of_mem (row := (.jalr, _, _)) (by decide) (fun _ => rfl), fun rd rs1 imm s => ?_⟩
  rw [← jalrTarget_eq]
  exact completesWith (.jalr rd rs1 imm) s

/-- Settles O16: the snapshot is taken through the register read. -/
theorem snapshotShowsRegisterReadsAndPc : Obligations.SnapshotShowsRegisterReadsAndPc :=
  fun _ => ⟨rfl, Vector.getElem_ofFn _, fun _ => Vector.getElem_ofFn _⟩

/-! ### Proofs of 40_execute_writeback.md sections 2 and 4: the ALU and the datapath (R94, R99) -/

theorem aluShamt_val (b : Word) : (aluShamt b).val = b.toNat % 32 :=
  (field_toNat b 0 5).trans (by simp)

/-- The shift amount is the low five bits of the I-immediate (rule R66). -/
theorem aluShamt_immI (w : Word) : aluShamt (immI w) = shamtOf w := by
  refine congrArg BitVec.toFin (BitVec.eq_of_getLsbD_eq fun k hk => ?_)
  rw [BitVec.getLsbD_extractLsb', getLsbD_immI w (by omega), if_pos (by omega), BitVec.getLsbD_extractLsb', Nat.zero_add]

theorem toNat_boolWord (p : Prop) [Decidable p] : (if p then 1#32 else 0#32).toNat = if p then 1 else 0 := by
  split <;> rfl

/-- The bits of an arithmetic right shift (rule R10). -/
theorem getLsbD_shiftRightArith (a : Word) (n : Shamt) {k : Nat} (hk : k < 32) :
    (shiftRightArith a n).getLsbD k = if k + n.val < 32 then a.getLsbD (k + n.val) else a.getLsbD 31 := by
  rw [shiftRightArith, BitVec.getLsbD_sshiftRight, BitVec.msb_eq_getLsbD_last, Nat.add_comm]
  simp [hk]

/-- A shift by 0 is the operand. -/
theorem shift_by_zero (a : Word) : shiftLeft a 0 = a ∧ shiftRightLogical a 0 = a ∧ shiftRightArith a 0 = a :=
  ⟨BitVec.shiftLeft_zero a, BitVec.ushiftRight_zero a, BitVec.sshiftRight_zero⟩

/-- Settles O21: each ALU operation is the machine's operation on the operands, read as a number or by its bits. -/
theorem aluComputesItsTable : Obligations.AluComputesItsTable := by
  refine fun a b => ⟨BitVec.toNat_add a b, toNat_boolWord _, toNat_boolWord _, fun _ => BitVec.getLsbD_xor,
    fun _ => BitVec.getLsbD_or, fun _ => BitVec.getLsbD_and, ?sll, ?srl, ?sra, fun h => ?zero, aluShamt_immI⟩
  case sll => rw [alu, shiftLeft, BitVec.toNat_shiftLeft, aluShamt_val, Nat.shiftLeft_eq]
  case srl => rw [alu, shiftRightLogical, BitVec.toNat_ushiftRight, aluShamt_val, Nat.shiftRight_eq_div_pow]
  case sra =>
    intro k hk
    rw [alu, getLsbD_shiftRightArith _ _ hk, aluShamt_val]
  case zero =>
    have hn : aluShamt b = 0 := Fin.ext ((aluShamt_val b).trans h)
    simp only [alu, hn]
    exact shift_by_zero a

/-- The datapath commits what the instruction of the record commits, where the record's `shamt` is the low five bits of its
`imm_I`. -/
theorem datapath_eq_commit {d : Decoded} {i : Instr} (hi : d.instr? = some i) (hshamt : aluShamt d.immI = d.shamt)
    (s : State) : datapath d s = some (s.commit i.rd (resultOf i s) (nextPcOf i s)) := by
  obtain ⟨_, cls, _, _, _, _, _, _, immI, _, _, shamt, _⟩ := d
  obtain rfl : aluShamt immI = shamt := hshamt
  cases cls with
  | illegal => exact nomatch hi
  | _ =>
    obtain rfl := Option.some.inj hi
    rfl

/-- Settles O22: the datapath's state is the instruction's commit, and ILLEGAL has no row in the control table. -/
theorem datapathAgreesWithInstructionRules : Obligations.DatapathAgreesWithInstructionRules := by
  refine ⟨fun w i s hi => ⟨_, exec_eq_commit i s, datapath_eq_commit (decodeWord_eq_ok.mp hi) (aluShamt_immI w) s⟩,
    fun w s hc => ?_⟩
  have hrow : controlTable (extract w).cls = none := congrArg controlTable hc
  rw [datapath, hrow]

end Sys2Proof.Machine

namespace Sys2Proof.Machine

/-! ### Proofs about the step (40_execute_writeback.md R90 to R98, 60_exceptions.md R150 to R156) -/

/-- Settles O59: memory and configuration are kept by every step, and a byte read sees nothing else. -/
theorem everyStepLeavesMemoryAndConfiguration : Obligations.EveryStepLeavesMemoryAndConfiguration := by
  intro s t h
  obtain ⟨hmem, hconfig⟩ := step_keeps_mem_config h
  exact ⟨hmem, hconfig, readByte_congr hmem hconfig⟩

/-- A step of the running machine whose PC is out of range raises MemoryFault (rule R151). -/
theorem step_of_not_inRange {s : State} (hs : s.status = .running) (hv : s.config.valid = true)
    (hr : inRange s.config s.pc 4 = false) : step s = .next (s.raise (.memoryFault s.pc)) := by
  have hfetch : s.fetch = .error (.memoryFault s.pc) := readWord_of_not_inRange hr
  simp [step, stepOnce, hs, hv, cycle, hfetch]

/-- A halted machine has no step (rule R91). -/
theorem step_of_halted {s : State} {f : Fault} (h : s.status = .halted f) : step s = .fault f := by
  simp [step, stepOnce, h]

/-- Settles O41: the out-of-range step raises, which changes the status alone. -/
theorem fetchOutsideTheWindowHaltsWithMemoryFault : Obligations.FetchOutsideTheWindowHaltsWithMemoryFault :=
  fun _ hs hv hout => ⟨_, step_of_not_inRange hs hv (inRange_four_eq_false hout), rfl, rfl, rfl, rfl, rfl⟩

/-- Settles O42: executing the ILLEGAL word raises, which changes the status alone. -/
theorem fetchedIllegalWordHaltsWithIllegalInstruction : Obligations.FetchedIllegalWordHaltsWithIllegalInstruction :=
  fun s _ hs hv hf hc =>
    ⟨_, (step_of_fetch hs hv hf).trans (execute_of_illegal hc s), rfl, rfl, rfl, rfl, rfl⟩

/-- Settles O43: the first step of the run is already the fault. -/
theorem haltedRunGoesNoFurther : Obligations.HaltedRunGoesNoFurther := by
  intro s f h
  have hstep : step s = .fault f := step_of_halted h
  refine ⟨hstep, fun k => ?_⟩
  have hcore : Sys2Proof.core.step s = .fault f := hstep
  simp only [Host.Core.run, hcore]

/-- Settles O44: one clause for each way a step of a valid configuration can go. -/
theorem driverReceivesOneResultPerStep : Obligations.DriverReceivesOneResultPerStep := by
  refine fun s hv => ⟨fun hs hr => ?memoryFault, fun hs w hf hc => ?illegal, fun hs w hf hc => ?ok, fun f hf => ?halted⟩
  case memoryFault => rw [step_of_not_inRange hs hv hr]; rfl
  case illegal => rw [step_of_fetch hs hv hf, execute_of_illegal hc]; rfl
  case ok =>
    obtain ⟨i, hi, -⟩ | ⟨-, hc'⟩ := decodeWord_cases w
    · rw [step_of_fetch hs hv hf, execute_of_decode hi, exec_eq_commit]
      simp [driverResult, hs]
    · exact absurd hc' hc
  case halted => rw [step_of_halted hf]; rfl

/-- Settles O45: a step raises an explained fault, or commits one instruction, which leaves the status running. -/
theorem stepCommitsAllOrNothing : Obligations.StepCommitsAllOrNothing := by
  intro s t h
  obtain ⟨hs, -, ⟨hr, rfl⟩ | ⟨w, hf, hc, rfl⟩ | ⟨w, i, hf, hi, rfl⟩⟩ := step_next h
  · exact .inr ⟨_, rfl, .inl ⟨rfl, hr⟩⟩
  · exact .inr ⟨_, rfl, .inr ⟨w, hf, hc, rfl⟩⟩
  · exact .inl ⟨(commit_status s _ _ _).trans hs, w, i, hf, hi, exec_eq_commit i s⟩

/-! ### The word at the PC (20_memory.md section 2, R45; 30_encoding.md R60) -/

/-- Decoding four bytes or more decodes the little-endian word of the first four. -/
theorem decodeBytes_eq_ok {b0 b1 b2 b3 : Byte} {rest rest' : List Byte} {i : Instr} :
    decodeBytes (b0 :: b1 :: b2 :: b3 :: rest) = .ok (i, rest') ↔
      decodeWord (wordOfBytes b0 b1 b2 b3) = .ok i ∧ rest = rest' := by
  rw [decodeBytes]
  cases decodeWord (wordOfBytes b0 b1 b2 b3) <;> simp

/-- The word of a word's bytes is the word. -/
theorem wordOfBytes_wordBytes (w : Word) :
    wordOfBytes (w.extractLsb' 0 8) (w.extractLsb' 8 8) (w.extractLsb' 16 8) (w.extractLsb' 24 8) = w := by
  apply BitVec.eq_of_getLsbD_eq
  intro n hn
  obtain ⟨k, j, hk, hj, rfl⟩ : ∃ k j, k < 4 ∧ j < 8 ∧ n = 8 * k + j :=
    ⟨n / 8, n % 8, by omega, Nat.mod_lt _ (by decide), (Nat.div_add_mod n 8).symm⟩
  refine (getLsbD_wordOfBytes (fun k => w.extractLsb' (8 * k) 8) hk hj).trans ?_
  simp [hj]

/-- A word of the opcode table decodes as the word its low bits make. -/
theorem decodeWord_of_decodeTableWord {nbits w : Nat} {i : Instr} (h : decodeTableWord nbits w = some i) :
    decodeWord (BitVec.ofNat 32 (w % 2 ^ nbits)) = .ok i := by
  unfold decodeTableWord at h
  split at h
  · next j rest hj =>
    obtain rfl := Option.some.inj h
    rw [← wordOfBytes_wordBytes (BitVec.ofNat 32 (w % 2 ^ nbits))]
    exact (decodeBytes_eq_ok.mp hj).1
  · exact nomatch h

/-- Settles O39: the fetched word is the little-endian word of the four bytes, which is what `decodeBytes` decodes. -/
theorem stepRunsTheDecodedInstruction : Obligations.StepRunsTheDecodedInstruction := by
  intro s i hs hv hr hi
  rw [step_of_fetch hs hv (readWord_of_inRange hr), execute_of_decode (decodeBytes_eq_ok.mp hi).1]

theorem getElem_wordBytes (w : Word) (k : Nat) (h : k < (wordBytes w).length) :
    (wordBytes w)[k] = w.extractLsb' (8 * k) 8 := by
  have hk : k < 4 := h
  obtain rfl | rfl | rfl | rfl : k = 0 ∨ k = 1 ∨ k = 2 ∨ k = 3 := by omega
  all_goals rfl

/-- Placing a word writes its four bytes from the PC upwards. -/
theorem byteAt_placeAtPc {s : State} (hr : inRange s.config s.pc 4 = true) (hm : Memory.wf s.mem) (w : Word) {k : Nat}
    (hk : k < 4) : Memory.byteAt (s.placeAtPc w).mem (s.pc.toNat + k) = w.extractLsb' (8 * k) 8 := by
  have hlen : s.pc.toNat ≤ s.pc.toNat + k ∧ s.pc.toNat + k - s.pc.toNat < (wordBytes w).length :=
    ⟨Nat.le_add_right _ _, by rwa [Nat.add_sub_cancel_left]⟩
  rw [placeAtPc_mem s w hr, byteAt_setBytes hm, dif_pos hlen, getElem_wordBytes, Nat.add_sub_cancel_left]

/-- Placing a word writes no byte but the four at the PC. -/
theorem byteAt_placeAtPc_outside {s : State} (hr : inRange s.config s.pc 4 = true) (hm : Memory.wf s.mem) (w : Word)
    {a : Nat} (ha : a < s.pc.toNat ∨ s.pc.toNat + 4 ≤ a) :
    Memory.byteAt (s.placeAtPc w).mem a = Memory.byteAt s.mem a := by
  have hlen : (wordBytes w).length = 4 := rfl
  rw [placeAtPc_mem s w hr, byteAt_setBytes hm, dif_neg (by omega)]

/-- The word placed at the PC is the word fetched there. -/
theorem fetch_placeAtPc {s : State} (hr : inRange s.config s.pc 4 = true) (hm : Memory.wf s.mem) (w : Word) :
    (s.placeAtPc w).fetch = .ok w := by
  have hrange : inRange (s.placeAtPc w).config (s.placeAtPc w).pc 4 = true := by
    rwa [placeAtPc_config, placeAtPc_pc]
  have hbyte0 := byteAt_placeAtPc hr hm w (k := 0) (by decide)
  rw [Nat.add_zero] at hbyte0
  rw [State.fetch, readWord_of_inRange hrange, placeAtPc_pc, hbyte0, byteAt_placeAtPc hr hm w (by decide),
    byteAt_placeAtPc hr hm w (by decide), byteAt_placeAtPc hr hm w (by decide), wordOfBytes_wordBytes]

/-- Settles O40: the fetch reads the placed word back, and placing it writes memory alone. -/
theorem stepRunsThePlacedWord : Obligations.StepRunsThePlacedWord := by
  intro s nbits w i hs hv hr hm hi
  have hstep := step_of_fetch ((placeAtPc_status s _).trans hs) ((congrArg Config.valid (placeAtPc_config s _)).trans hv)
    (fetch_placeAtPc hr hm (BitVec.ofNat 32 (w % 2 ^ nbits)))
  refine ⟨hstep.trans (execute_of_decode (decodeWord_of_decodeTableWord hi) _), placeAtPc_regs s _, placeAtPc_pc s _,
    placeAtPc_status s _, placeAtPc_config s _, wf_placeAtPc hm _, fun a ha => byteAt_placeAtPc_outside hr hm _ ha⟩

/-! ### Proofs of 20_memory.md: the byte read and the window (R41, R47) -/

/-- Settles O18: the byte read is the bounds test on one byte. -/
theorem byteReadIsBoundsChecked : Obligations.ByteReadIsBoundsChecked := by
  refine fun s a => ⟨fun hlo hhi => readByte_of_inRange (inRange_iff.mpr ⟨hlo, by omega⟩), fun hout => if_neg ?_⟩
  rw [inRange_iff]
  omega

/-- Settles O19: the model's inequality has 1 added on both sides. -/
theorem inRangeIsTheIntegerInequality : Obligations.InRangeIsTheIntegerInequality := by
  intro c a n
  rw [inRange_iff]
  omega

/-! ### Proofs of 10_state.md and 70_reset_and_hazards.md: boot and reset (R8, R35 to R37) -/

/-- Settles O46: the constraints of rule R8, the branches of `boot`, and the refusal of a step. -/
theorem bootAcceptsExactlyValidLaunches : Obligations.BootAcceptsExactlyValidLaunches := by
  refine ⟨fun c => config_valid_iff, fun c image hv => ?_, fun c image hv hl => ?_, fun c image hv hl => ?_,
    fun s hs hv => ?_⟩
  · simp [boot, hv]
  · simp [boot, hv, hl]
  · simp [boot, hv, hl]
  · simp [step, stepOnce, hs, hv]

/-- Settles O49: the loader's verbatim copy, `memFill` being 0x00. -/
theorem bootPlacesTheImageVerbatim : Obligations.BootPlacesTheImageVerbatim :=
  fun _ _ _ hboot _ hj => boot_readByte hboot hj

/-- What reset leaves in each register (rule R35). -/
theorem readReg_initial (c : Config) (m : Memory) (r : Reg) :
    (State.initial c m).readReg r = if r = 2 then spInit c else 0#32 := by
  by_cases h0 : r = 0
  · subst h0; rfl
  rw [readReg_of_ne_zero _ h0]
  by_cases h2 : r = 2
  · subst h2; simp [initRegs]
  · have hval : 2 ≠ r.val := fun h => h2 (Fin.ext h.symm)
    simp [initRegs, h2, hval]

/-- Settles O48: x2 is `SP_INIT` and every other register 0; the rest is the definition of the reset state. -/
theorem resetLeavesStackPointerAndZeroes : Obligations.ResetLeavesStackPointerAndZeroes :=
  ⟨fun c m => ⟨readReg_initial c m 2, fun r hr => (readReg_initial c m r).trans (if_neg hr), initial_status c m⟩,
   by decide, rfl, rfl, rfl⟩

/-! ### Proofs of the invariant (10_state.md sections 1 to 5, 20_memory.md sections 1 and 4) -/

/-- The initial state of a valid configuration over canonical memory inside the window meets the invariant. -/
theorem initial_inv {c : Config} {m : Memory} (hv : c.valid = true) (hwf : Memory.wf m) (hwin : Memory.inWindow c m) :
    (State.initial c m).Inv where
  configValid := hv
  zeroSlot := by simp [initRegs]
  pcEven := by
    have hbase : c.memBase.toNat % 4 = 0 := (config_valid_iff.mp hv).1
    rw [initial_pc, resetVector]
    omega
  memWf := hwf
  memInWindow := hwin
  haltExplained f hf := nomatch hf

/-- Settles O50: the reset state is the initial state over empty memory. -/
theorem resetMeetsTheInvariant : Obligations.ResetMeetsTheInvariant :=
  initial_inv (by decide) wf_nil (List.forall_mem_nil _)

/-- Settles O51: the loader keeps memory canonical and inside the window. -/
theorem bootMeetsTheInvariant : Obligations.BootMeetsTheInvariant := by
  intro c image s hboot
  obtain ⟨hv, hl⟩ := boot_accepts hboot
  rw [boot_ok hboot]
  exact initial_inv hv (wf_setBytes wf_nil _ _) (inWindow_setBytes (List.forall_mem_nil _) _ ⟨Nat.le_refl _, by omega⟩)

/-- A halt is explained by the PC, memory and configuration, which raising a fault leaves alone. -/
theorem inv_raise {s : State} {f : Fault} (h : s.Inv) (hf : HaltExplained s f) : (s.raise f).Inv where
  configValid := h.configValid
  zeroSlot := h.zeroSlot
  pcEven := h.pcEven
  memWf := h.memWf
  memInWindow := h.memInWindow
  haltExplained _ hg := Status.halted.inj hg ▸ hf

/-- A commit of an even PC to a running state keeps the invariant. -/
theorem inv_commit {s : State} (h : s.Inv) (hs : s.status = .running) (rd : Reg) (v : Word) {p : Word}
    (hp : p.toNat % 2 = 0) : (s.commit rd v p).Inv where
  configValid := by rw [commit_config]; exact h.configValid
  zeroSlot := (commit_slot_zero s rd v p).trans h.zeroSlot
  pcEven := hp
  memWf := by rw [commit_mem]; exact h.memWf
  memInWindow := by rw [commit_mem, commit_config]; exact h.memInWindow
  haltExplained f hf := by rw [commit_status, hs] at hf; exact nomatch hf

/-- The PC stays even (rule R28): a decoded JAL offset is even, and JALR clears bit 0. -/
theorem nextPcOf_even {w : Word} {i : Instr} {s : State} (hi : decodeWord w = .ok i) (hpc : s.pc.toNat % 2 = 0) :
    (nextPcOf i s).toNat % 2 = 0 := by
  cases i with
  | jal rd offset =>
    obtain ⟨hfits, -, -⟩ := encodeOfDecodeIsTheWordReadBits w _ hi
    have hodd := (toInt_emod (m := 2) (by decide) offset).symm.trans (immJFits_iff.mp hfits).1
    rw [nextPcOf, jalTarget, BitVec.toNat_add]
    omega
  | jalr rd rs1 imm =>
    rw [nextPcOf, jalrTarget, toNat_and_clearBit0]
    omega
  | _ =>
    rw [nextPcOf, seqPc, BitVec.toNat_add, BitVec.toNat_ofNat]
    omega

/-- Settles O52: a step raises an explained fault or commits an even PC, and both keep the invariant. -/
theorem everyStepKeepsTheInvariant : Obligations.EveryStepKeepsTheInvariant := by
  intro s t hinv h
  obtain ⟨hs, -, ⟨hr, rfl⟩ | ⟨w, hf, hc, rfl⟩ | ⟨w, i, -, hi, rfl⟩⟩ := step_next h
  · exact inv_raise hinv (.inl ⟨rfl, hr⟩)
  · exact inv_raise hinv (.inr ⟨w, hf, hc, rfl⟩)
  · exact inv_commit hinv hs _ _ (nextPcOf_even hi hinv.pcEven)

/-- Settles O53: the invariant holds at boot and every step keeps it, and no step changes the configuration. -/
theorem reachableStatesMeetTheInvariant : Obligations.ReachableStatesMeetTheInvariant := by
  rintro c image k t ⟨s, hboot, hrun⟩
  have hconfig : s.config = c := by rw [boot_ok hboot, initial_config]
  exact ⟨run_keeps (M := Sys2Proof.core) (P := State.Inv) everyStepKeepsTheInvariant
      (bootMeetsTheInvariant c image s hboot) hrun,
    (run_keeps_mem_config hrun).2.trans hconfig⟩

/-- From a PC that is a multiple of 4 the next PC is one, where a jump's offset or target is. -/
theorem nextPcOf_aligned {i : Instr} {s : State} (halign : AlignedTarget i s) (hpc : s.pc.toNat % 4 = 0) :
    (nextPcOf i s).toNat % 4 = 0 := by
  cases i with
  | jal rd offset =>
    have hoffset : offset.toNat % 4 = 0 := halign
    rw [nextPcOf, jalTarget, BitVec.toNat_add]
    omega
  | jalr => exact halign
  | _ =>
    rw [nextPcOf, seqPc, BitVec.toNat_add, BitVec.toNat_ofNat]
    omega

/-- Settles O54: a raised fault leaves the PC, and a commit moves it to an aligned one. -/
theorem alignedTargetsKeepThePcAligned : Obligations.AlignedTargetsKeepThePcAligned := by
  intro s t hpc halign h
  obtain ⟨-, -, ⟨-, rfl⟩ | ⟨w, -, -, rfl⟩ | ⟨w, i, hf, hi, rfl⟩⟩ := step_next h
  · exact hpc
  · exact hpc
  · exact nextPcOf_aligned (halign w i hf hi) hpc

/-! ### Proofs of D7: a target is fetched at any alignment -/

/-- Where the four bytes at the PC are in the window, the next step fetches and executes them. -/
theorem fetchesBytesAtPc_of_inRange {t : State} (h : inRange t.config t.pc 4 = true) : FetchesBytesAtPc t := by
  obtain ⟨w, hw, hbits⟩ := readWord_bits h
  exact ⟨w, hw, hbits, fun hs hv => step_of_fetch hs hv hw⟩

/-- An instruction completes with its result and next PC, and the bytes there are fetched where they are in the window. -/
theorem exec_commits_and_fetches (i : Instr) (s : State) :
    ∃ t, exec i s = .next t ∧ Commits s t i.rd (resultOf i s) (nextPcOf i s) ∧
      (inRange s.config (nextPcOf i s) 4 = true → FetchesBytesAtPc t) :=
  ⟨_, exec_eq_commit i s, commits_commit s i.rd _ _,
   fun hr => fetchesBytesAtPc_of_inRange (by rw [commit_config]; exact hr)⟩

/-- Settles O55: the jump commits its target, and the fetch there tests the bounds alone. -/
theorem unalignedTargetIsFetchedWithoutFault : Obligations.UnalignedTargetIsFetchedWithoutFault :=
  ⟨fun rd offset s _ => exec_commits_and_fetches (.jal rd offset) s,
   fun rd rs1 imm s _ => exec_commits_and_fetches (.jalr rd rs1 imm) s⟩

end Sys2Proof.Machine

namespace Sys2Proof.Machine

/-! ### Proofs of 30_encoding.md section 4: the pseudo-instructions (R79) -/

/-- Running a list of instructions is one commit after another. -/
theorem execAll_cons (i : Instr) (rest : List Instr) (s : State) :
    execAll (i :: rest) s = execAll rest (s.commit i.rd (resultOf i s) (nextPcOf i s)) := by
  rw [execAll, exec_eq_commit]

theorem execAll_singleton (i : Instr) (s : State) :
    execAll [i] s = .next (s.commit i.rd (resultOf i s) (nextPcOf i s)) := execAll_cons i [] s

/-- `Commits` of an equal PC and an equal value; a commit to x0 discards its value, so any other stands for it. -/
theorem Commits.congr {s t : State} {rd : Reg} {v v' p p' : Word} (h : Commits s t rd v p) (hv : rd ≠ 0 → v = v')
    (hp : p = p') : Commits s t rd v' p' where
  __ := h
  result := by
    rw [h.result]
    split
    · rfl
    · next hrd => exact hv hrd
  pc := h.pc.trans hp

/-- Two commits to one register are the second, seen from before the first. -/
theorem Commits.trans {s t u : State} {rd : Reg} {v v' p p' : Word} (h : Commits s t rd v p) (h' : Commits t u rd v' p') :
    Commits s u rd v' p' where
  result := h'.result
  others r hr := (h'.others r hr).trans (h.others r hr)
  pc := h'.pc
  bytes a := (h'.bytes a).trans (h.bytes a)
  mem := h'.mem.trans h.mem
  config := h'.config.trans h.config
  status := h'.status.trans h.status

/-- A commit moves on to another PC. -/
theorem Commits.setPc {s t : State} {rd : Reg} {v p : Word} (h : Commits s t rd v p) (p' : Word) :
    Commits s (t.setPc p') rd v p' :=
  { h with pc := setPc_pc t p' }

/-- The signed low part is congruent to the value modulo 2^12. -/
theorem loPart_emod (v : Word) : (loPart v).toNat % 4096 = v.toNat % 4096 := by
  have hint : (loPart v).toInt = (v.toNat : Int).bmod 4096 :=
    (sext_toInt (by decide) _).trans (BitVec.toInt_setWidth v)
  have hmod := toInt_emod (m := 4096) (by decide) (loPart v)
  rw [hint, Int.bmod_emod] at hmod
  omega

theorem immIFits_loPart (v : Word) : immIFits (loPart v) = true := by
  rw [← immI_encI_eq_loPart v 0#32]
  exact immIFits_immI _

theorem immUFits_hiPart (v : Word) : immUFits (hiPart v) = true := by
  have hlo := loPart_emod v
  rw [immUFits_iff, hiPart, BitVec.toNat_sub]
  omega

theorem hiPart_add_loPart (v : Word) : hiPart v + loPart v = v := BitVec.sub_add_cancel v (loPart v)

theorem add_hiPart_add_loPart (pc v : Word) : pc + hiPart v + loPart v = pc + v := by
  rw [BitVec.add_assoc, hiPart_add_loPart]

/-- Two sequential steps of the PC. -/
theorem seqPc_seqPc (pc : Word) : seqPc (seqPc pc) = pc + 8#32 := BitVec.add_assoc pc 4#32 4#32

/-- An instruction that puts an upper part into `rd`, and an ADDI of a lower part to `rd`, put the sum there. -/
theorem execAll_upper_addi {i : Instr} {rd : Reg} {upper : Word} {s : State} (hrd : i.rd = rd)
    (hupper : resultOf i s = upper) (hpc : nextPcOf i s = seqPc s.pc) (lower : Word) :
    ∃ t, execAll [i, .addi rd rd lower] s = .next t ∧ Commits s t rd (upper + lower) (s.pc + 8#32) := by
  refine ⟨_, (execAll_cons _ _ s).trans (execAll_singleton _ _), ?_⟩
  rw [hrd, hupper, hpc]
  refine ((commits_commit s rd upper (seqPc s.pc)).trans (commits_commit _ rd _ _)).congr (fun hne => ?_) (seqPc_seqPc s.pc)
  rw [resultOf, commit_readReg_same, if_neg hne]

/-- `li` loads its value, and goes on after its instructions. -/
theorem execAll_li (rd : Reg) (imm : Word) (s : State) :
    ∃ t, execAll (Pseudo.li rd imm).expand s = .next t ∧
      Commits s t rd imm (s.pc + BitVec.ofNat 32 (4 * (Pseudo.li rd imm).expand.length)) := by
  rw [Pseudo.expand]
  split_ifs with hfits hlo
  · refine ⟨_, execAll_singleton _ s, (commits_commit s rd _ _).congr (fun _ => ?_) rfl⟩
    rw [resultOf, readReg_zero, BitVec.zero_add]
  · refine ⟨_, execAll_singleton _ s, (commits_commit s rd _ _).congr (fun _ => ?_) rfl⟩
    rw [resultOf, hiPart, hlo, BitVec.sub_zero]
  · obtain ⟨t, hexec, hcommits⟩ :=
      execAll_upper_addi (i := .lui rd (hiPart imm)) (s := s) rfl rfl rfl (loPart imm)
    exact ⟨t, hexec, hcommits.congr (fun _ => hiPart_add_loPart imm) rfl⟩

theorem wellFormed_li (rd : Reg) (imm : Word) : ∀ i ∈ (Pseudo.li rd imm).expand, i.wellFormed = true := by
  rw [Pseudo.expand]
  split_ifs with hfits hlo
  · simpa [Instr.wellFormed] using hfits
  · simpa [Instr.wellFormed] using immUFits_hiPart imm
  · simpa [Instr.wellFormed] using ⟨immUFits_hiPart imm, immIFits_loPart imm⟩

/-- Settles O56: `li` is one commit of its value. -/
theorem loadImmediateExpansionLoadsTheValue : Obligations.LoadImmediateExpansionLoadsTheValue := by
  intro rd imm s
  obtain ⟨t, hexec, hcommits⟩ := execAll_li rd imm s
  exact ⟨wellFormed_li rd imm, t, hexec, hcommits.result, hcommits.others, hcommits.pc, hcommits.mem⟩

/-- The upper and lower parts of an offset fit the formats of their instructions. -/
theorem wellFormed_offset_pair (offset : Word) (rd rd' rs : Reg) :
    (Instr.auipc rd (hiPart offset)).wellFormed = true ∧ (Instr.addi rd' rs (loPart offset)).wellFormed = true ∧
    (Instr.jalr rd' rs (loPart offset)).wellFormed = true :=
  ⟨immUFits_hiPart offset, immIFits_loPart offset, immIFits_loPart offset⟩

/-- From an even PC and with an even offset, a JALR by the lower part after an AUIPC of the upper part reaches the PC plus the
offset. -/
theorem nextPcOf_jalr_after_auipc {s : State} {offset : Word} (hoffset : offset.toNat % 2 = 0)
    (hpc : s.pc.toNat % 2 = 0) {rs : Reg} (hrs : rs ≠ 0) (rd : Reg) (p : Word) :
    nextPcOf (.jalr rd rs (loPart offset)) (s.commit rs (s.pc + hiPart offset) p) = s.pc + offset := by
  rw [nextPcOf, jalrTarget, commit_readReg_same, if_neg hrs, add_hiPart_add_loPart]
  refine and_clearBit0_of_even ?_
  rw [BitVec.toNat_add]
  omega

/-- Settles O57: each expansion is an AUIPC of the upper part and an addition or jump by the lower part. -/
theorem callTailAndAddressExpansionsReachTheOffset : Obligations.CallTailAndAddressExpansionsReachTheOffset := by
  refine ⟨fun rd offset s => ⟨?laWf, ?la⟩, fun offset s => ⟨?wf, fun hoffset hpc => ⟨?call, ?tail⟩⟩⟩
  case laWf =>
    obtain ⟨hauipc, haddi, -⟩ := wellFormed_offset_pair offset rd rd rd
    simp [Pseudo.expand, hauipc, haddi]
  case la =>
    obtain ⟨t, hexec, hcommits⟩ :=
      execAll_upper_addi (i := .auipc rd (hiPart offset)) (s := s) rfl rfl rfl (loPart offset)
    exact ⟨t, hexec, hcommits.congr (fun _ => add_hiPart_add_loPart s.pc offset) rfl⟩
  case wf =>
    obtain ⟨hcall, -, hcall'⟩ := wellFormed_offset_pair offset 1 1 1
    obtain ⟨htail, -, htail'⟩ := wellFormed_offset_pair offset 6 0 6
    simp [Pseudo.expand, hcall, hcall', htail, htail']
  case call =>
    refine ⟨_, (execAll_cons _ _ s).trans (execAll_singleton _ _), ?_⟩
    exact ((commits_commit s 1 _ _).trans (commits_commit _ 1 _ _)).congr (fun _ => seqPc_seqPc s.pc)
      (nextPcOf_jalr_after_auipc hoffset hpc (by decide) 1 _)
  case tail =>
    refine ⟨_, s.pc + hiPart offset, (execAll_cons _ _ s).trans (execAll_singleton _ _), ?_⟩
    exact ((commits_commit s 6 _ _).setPc _).congr (fun _ => rfl)
      (nextPcOf_jalr_after_auipc hoffset hpc (by decide) 0 _)

/-- An unsigned value is below 1 exactly when it is 0. -/
theorem setLessUnsigned_one (v : Word) : setLessUnsigned v 1#32 = if v = 0#32 then 1#32 else 0#32 := by
  simp [setLessUnsigned, BitVec.toNat_eq]

/-- A JALR that discards its link and adds nothing jumps to the register with bit 0 cleared. -/
theorem execAll_jr (rs : Reg) (s : State) :
    execAll [.jalr 0 rs 0#32] s = .next (s.setPc (s.readReg rs &&& 0xFFFFFFFE#32)) := by
  rw [execAll_singleton, Instr.rd, commit_zero, nextPcOf, jalrTarget, BitVec.add_zero]

/-- Settles O58: each expansion is one instruction, with an operand that makes its result the named one. -/
theorem singleInstructionExpansionsDoWhatTheyName : Obligations.SingleInstructionExpansionsDoWhatTheyName := by
  refine fun rd rs s => ⟨?mv, ?not, ?seqz, execAll_singleton _ s, execAll_jr rs s, execAll_jr 1 s⟩
  case mv => exact ⟨_, execAll_singleton _ s, (commits_commit s rd _ _).congr (fun _ => BitVec.add_zero _) rfl⟩
  case not => exact ⟨_, execAll_singleton _ s, (commits_commit s rd _ _).congr (fun _ => BitVec.xor_allOnes) rfl⟩
  case seqz => exact ⟨_, execAll_singleton _ s, (commits_commit s rd _ _).congr (fun _ => setLessUnsigned_one _) rfl⟩

end Sys2Proof.Machine
